-- ==== Sys2Proof/Word.lean ====
section
/-! DEFINITION. The word types of the block: 16-bit bus addresses, bytes and the 25-bit transaction word
(00_scope.md R7, R13; 30_encoding.md R60). -/

namespace Sys2Proof

/-- A byte: every device register, array element and data operand (R7). -/
abbrev Byte := BitVec 8

/-- A bus address, "16-bit unsigned integer" (R7). -/
abbrev Addr := BitVec 16

/-- A transaction word `T`, laid out as the bits `W`, `A`, `D` (R60). -/
abbrev BusWord := BitVec 25

end Sys2Proof
end

