-- ==== Sys2Proof/Config.lean ====
section
/-! DEFINITION. The configuration of the block (00_scope.md R7 to R12): what is fixed before power-on and never changes
(10_state.md R22), its well-formedness, the standard values, and the two values the spec leaves open. -/

namespace Sys2Proof

/-- An inclusive address range of the map (R19). -/
structure Window where
  lo : Nat
  hi : Nat
deriving DecidableEq, Repr

/-- `a` lies in the window. -/
abbrev Window.Contains (w : Window) (a : Addr) : Prop := w.lo ≤ a.toNat ∧ a.toNat ≤ w.hi

/-- How many addresses the window owns. -/
def Window.size (w : Window) : Nat := w.hi + 1 - w.lo

/-- No address lies in both windows. -/
abbrev Window.Disjoint (v w : Window) : Prop := v.hi < w.lo ∨ w.hi < v.lo

/-- The configuration record `MAP` (R9), one window per name of the source. -/
structure AddressMap where
  ramW   : Window
  romA   : Window
  serLeg : Window
  vidW   : Window
  romMid : Window
  kbdW   : Window
  unused : Window
  serNat : Window
  romKlo : Window
  romKhi : Window
deriving DecidableEq, Repr

/-- All windows, in the order of the dispatch table (20_memory.md R42). -/
def AddressMap.windows (m : AddressMap) : List Window :=
  [m.ramW, m.romA, m.serLeg, m.vidW, m.romMid, m.kbdW, m.unused, m.serNat, m.romKlo, m.romKhi]

/-- R10 (a) to (d) and (f). Clause (e), on the video buffer, stands in `Config.WellFormed`. -/
structure AddressMap.WellFormed (m : AddressMap) : Prop where
  inSpace    : ∀ w ∈ m.windows, w.lo ≤ w.hi ∧ w.hi ≤ 0xFFFF
  disjoint   : m.windows.Pairwise Window.Disjoint
  kbdPage    : m.kbdW.lo % 0x100 = 0 ∧ m.kbdW.hi = m.kbdW.lo + 0xFF
  unusedNext : m.unused.lo = m.kbdW.hi + 1 ∧ m.unused.hi = m.kbdW.hi + 1 ∧ m.kbdW.hi < 0xFFFF
  kernelSplit : m.romKlo.hi + 1 = m.serNat.lo ∧ m.serNat.hi + 1 = m.romKhi.lo
  legacyFits : m.serLeg.size ≤ m.serNat.size
  nativeSize : ∃ k, 1 ≤ k ∧ m.serNat.size = 2 ^ k

/-- A key position of the 8 by 8 matrix (42_keyboard.md R120). -/
structure KeyPos where
  row : Fin 8
  col : Fin 8
deriving DecidableEq, Repr

/-- What a Receive Data read returns with no byte available (R12, 92_eei_decisions.md D9). -/
inductive RxEmptyRead where
  | latch
  | any
deriving DecidableEq, Repr

/-- The three byte arrays of the block (10_state.md R23 to R25). -/
inductive Bank where
  | ram
  | rom
  | vid
deriving DecidableEq, Repr

/-- The configuration of a block (R22). -/
structure Config where
  map : AddressMap
  ramSize : Nat
  romSize : Nat
  vidBase : Nat
  vidSize : Nat
  keymap : Byte → Option KeyPos
  lockRow : Fin 8
  lockCol : Fin 8
  retCode : Byte
  bsCode : Byte
  romFill : Byte
  rxEmptyRead : RxEmptyRead
  detWindow : Nat
  detCount : Nat
  backupReads : Nat

/-- The configurations the spec allows: thresholds R8, map R10, array sizes R11, the one fixed key R122. -/
structure Config.WellFormed (c : Config) : Prop where
  map : c.map.WellFormed
  ramSize : ∃ k, c.ramSize = 2 ^ k
  romSize : ∃ k, c.romSize = 2 ^ k
  vidWindow : c.map.vidW.lo = c.vidBase ∧ c.map.vidW.hi + 1 = c.vidBase + c.vidSize
  keyA : c.keymap 0x41 = some ⟨1, 6⟩
  window : 1 ≤ c.detWindow ∧ c.detWindow < c.backupReads
  count : 1 ≤ c.detCount

/-- What a byte of an array reads as when nothing has written it: RAM and video are zeroed (R23, R25), ROM holds
`ROM_FILL` (R24). The one definition of what an unlisted memory cell holds. -/
def Config.unlisted (c : Config) : Bank → Byte
  | .ram => 0x00
  | .rom => c.romFill
  | .vid => 0x00

/-- How many bytes an array has (R11). -/
def Config.bankSize (c : Config) : Bank → Nat
  | .ram => c.ramSize
  | .rom => c.romSize
  | .vid => c.vidSize

/-- The default `MAP` of R9 (UNVERIFIED against the repository: log 1). -/
def AddressMap.standard : AddressMap where
  ramW   := ⟨0x0000, 0x7FFF⟩
  romA   := ⟨0xA000, 0xBFFF⟩
  serLeg := ⟨0xF000, 0xF0FF⟩
  vidW   := ⟨0xD000, 0xD7FF⟩
  romMid := ⟨0xF100, 0xF7FF⟩
  kbdW   := ⟨0xDF00, 0xDFFF⟩
  unused := ⟨0xE000, 0xE000⟩
  serNat := ⟨0xFC00, 0xFCFF⟩
  romKlo := ⟨0xF800, 0xFBFF⟩
  romKhi := ⟨0xFD00, 0xFFFF⟩

/-- The part of `KEYMAP` the spec leaves OPEN (R122, D13): uninterpreted, so that nothing about it can be proved (log 2). -/
opaque Config.openKeymap : Byte → Option KeyPos

/-- The byte the `n`-th draw gives where `RX_EMPTY_READ = Any` (41_serial.md R104): a free value (log 4). -/
opaque Config.freeByte : Nat → Byte

/-- `KEYMAP` with its one fixed entry, the key 'A' at row 1, column 6 (R122). -/
def Config.standardKeymap (k : Byte) : Option KeyPos :=
  if k = 0x41 then some ⟨1, 6⟩ else Config.openKeymap k

/-- The configuration the opcode table is made for and the machine of this package runs: every parameter at its default
(R8, R9, R11, R12), `KEYMAP` open but for its fixed entry (DESIGN CHOICE of the spec's own decisions: log 1). -/
def Config.standard : Config where
  map := AddressMap.standard
  ramSize := 0x8000
  romSize := 0x8000
  vidBase := 0xD000
  vidSize := 0x0800
  keymap := Config.standardKeymap
  lockRow := 0
  lockCol := 0
  retCode := 0x0D
  bsCode := 0x08
  romFill := 0x00
  rxEmptyRead := .latch
  detWindow := 10
  detCount := 3
  backupReads := 100

end Sys2Proof
end

