-- ==== Sys2Proof/Machine/State.lean ====
section
/-! DEFINITION. The state of the machine as plain data: every state element of 10_state.md, the console queues and flags of the
environment the rules read and write (R38, R152), what the interfaces of R39 carry, and the model's own bookkeeping; the ways a
step can stop; and the state right after power-on (70_reset_and_hazards.md R175, R177). -/

namespace Sys2Proof.Machine

open Sys2Proof

/-- A byte array held sparsely, as (index, byte) cells in one canonical form: indexes strictly rising, and no cell equal to what
an unlisted index reads as (`Config.unlisted`). -/
abbrev Memory := List Host.Cell

/-- The serial adapter's stored registers (R26 to R30). The Status register is not stored (R31). -/
structure Serial where
  /-- `S.ser.control`, write only, without effect (R27). -/
  control : Byte
  /-- `S.ser.txdata`, the last byte transmitted, write only (R28). -/
  txdata : Byte
  /-- `S.ser.rxlatch`, the latest received byte (R29). -/
  rxlatch : Byte
  /-- `S.ser.tdre_flag`, the hidden transmit-empty flag (R30). -/
  tdreFlag : Bool
deriving DecidableEq, Repr

/-- The resting states of the auto-release machine (R36). -/
inductive Phase where
  | idle
  | pressedRecently
deriving DecidableEq, Repr

/-- The keyboard matrix controller (R32 to R36). -/
structure Keyboard where
  /-- `S.kbd.rows[0..7]`: bit `c` of row `r` is 0 exactly when the key at (`r`, `c`) is pressed (R32). -/
  rows : Vector Byte 8
  /-- `S.kbd.rowsel`: bit `r` is 0 when row `r` is selected (R33). -/
  rowsel : Byte
  /-- `S.kbd.rse`: reads since the last key event, saturating (R34). -/
  rse : Nat
  /-- `S.kbd.det`: detections counted (R35). -/
  det : Nat
  /-- `S.kbd.phase` (R36). -/
  phase : Phase
deriving DecidableEq, Repr

/-- Values of the pending-action flag (44_host.md R152). -/
inductive PendingAction where
  | none
  | resetRequest
deriving DecidableEq, Repr

/-- Whether the one ROM load of a run may still happen (44_host.md R149): `opened` after power-on, `loaded` once an image was
supplied, `closed` from the first transaction on. -/
inductive RomPort where
  | opened
  | loaded
  | closed
deriving DecidableEq, Repr

/-- What the host does between transactions (44_host.md R145). -/
inductive HostEvent where
  /-- Power-on: a new run starts (70_reset_and_hazards.md R177). -/
  | powerOn
  /-- The ROM image is supplied (R148). -/
  | romLoad (img : List Byte)
  /-- `CON_IN b`: a console byte arrives (R150). -/
  | conIn (b : Byte)
  /-- `CON_OUT`: the host drains the first `k` bytes of the output queue (R151). -/
  | conOut (k : Nat)
  /-- The reset button sets the pending-action flag (R152). -/
  | resetRequest
  /-- The pacer checks the pending-action flag, once per quantum (R152, R153). -/
  | pacerCheck
deriving DecidableEq, Repr

/-- What happens next: a bus transaction the CPU collaborator presents, or a host interaction. -/
inductive Event where
  | bus (t : BusWord)
  | host (h : HostEvent)
deriving DecidableEq, Repr

/-- The state of the machine. `ram` to `romLenMismatch` are the block's state `S`; the fields after them belong to the block's
environment and its interfaces; `draws` and `agenda` are the model's own (log 4, log 5). -/
structure State where
  /-- `S.ram` (R23). -/
  ram : Memory
  /-- `S.rom` (R24). -/
  rom : Memory
  /-- `S.vid` (R25). -/
  vid : Memory
  /-- `S.ser` (R26 to R30). -/
  ser : Serial
  /-- `S.kbd` (R32 to R36). -/
  kbd : Keyboard
  /-- `S.rom_len_mismatch` (R37). -/
  romLenMismatch : Bool
  /-- `E.inQ`, console bytes not yet consumed, oldest first (R38). -/
  inQ : List Byte
  /-- `E.outQ`, bytes transmitted and not yet drained, oldest first (R38). -/
  outQ : List Byte
  /-- The bytes the host has drained so far, in push order (R151; log 13). -/
  hostOut : List Byte
  /-- What the last transaction returned to the CPU collaborator: a read's byte (R61), nothing for a write (log 6). -/
  result : Option Byte
  /-- Whether the ROM load is still allowed (R149; log 9, log 10). -/
  romPort : RomPort
  /-- The pending-action flag (R152; log 14). -/
  pendingAction : PendingAction
  /-- How often the CPU collaborator's reset has been invoked (R152; log 14). -/
  cpuResets : Nat
  /-- How many free bytes have been drawn (R104 with `RX_EMPTY_READ = Any`; log 4). -/
  draws : Nat
  /-- What the CPU collaborator and the host do next, oldest first (log 5). -/
  agenda : List Event
deriving DecidableEq, Repr

/-- The reasons the machine stops with a fault: none, since the block raises no exception, fault or bus error of any kind
(60_exceptions.md R160, R161). -/
inductive Fault where
deriving DecidableEq, Repr

/-- The reasons a step is refused. -/
inductive Refusal where
  /-- Raised by an arm of `exec` whose instruction has no meaning yet; safe. No arm of this package raises it. -/
  | notModelled (mnemonic : String)
  /-- Raised by `step` when a transaction word selects no row of the opcode table; safe. R66 says this cannot happen. -/
  | noRow
  /-- Raised by a ROM load after the first transaction of a run, which "a model refuses" (44_host.md R149); safe. -/
  | romLoadAfterStart
  /-- Raised by a second ROM load before the first transaction: the ROM "is loaded exactly once per run" (R149; log 10); safe. -/
  | romLoadTwice
deriving DecidableEq, Repr

/-- The serial adapter at power-on (R177). -/
def Serial.powerOn : Serial where
  control := 0x00
  txdata := 0x00
  rxlatch := 0x00
  tdreFlag := true

/-- The keyboard controller at power-on: every key released but the lock key (R177). -/
def Keyboard.powerOn (c : Config) : Keyboard where
  rows := (Vector.replicate 8 0xFF).set c.lockRow (0xFF &&& ~~~(1#8 <<< c.lockCol.val))
  rowsel := 0x00
  rse := 0
  det := 0
  phase := .idle

/-- The machine right after power-on in the standard configuration, before a ROM image is supplied: `PowerOn([], 0)` of R177,
so the ROM holds its fill and the length mismatch is reported (R148; log 9); nothing queued and nothing on the agenda. -/
def State.reset : State where
  ram := []
  rom := []
  vid := []
  ser := Serial.powerOn
  kbd := Keyboard.powerOn Config.standard
  romLenMismatch := true
  inQ := []
  outQ := []
  hostOut := []
  result := none
  romPort := .opened
  pendingAction := .none
  cpuResets := 0
  draws := 0
  agenda := []

end Sys2Proof.Machine
end

