-- ==== Sys2Proof/Machine/Ops.lean ====
section
/-! DEFINITION. The named operations over memory, the console transport and the bus answer. There is no operation that takes an
exception and none that returns from one: the block raises no exception and takes no trap (60_exceptions.md R160, R164). -/

namespace Sys2Proof.Machine

open Sys2Proof

/-- The byte at index `i` of an array whose unlisted indexes read as `fill`. -/
def Memory.read (fill : Byte) : Memory → Nat → Byte
  | [], _ => fill
  | (k, v) :: m, i => if k = i then v else Memory.read fill m i

/-- The array with byte `b` at index `i`, in canonical form: a cell equal to `fill` is not listed. -/
def Memory.write (fill : Byte) : Memory → Nat → Byte → Memory
  | [], i, b => if b = fill then [] else [(i, b)]
  | (k, v) :: m, i, b =>
    if i < k then (if b = fill then (k, v) :: m else (i, b) :: (k, v) :: m)
    else if i = k then (if b = fill then m else (i, b) :: m)
    else (k, v) :: Memory.write fill m i b

/-- The cells of `bytes` laid out from index `i` on. -/
def Memory.ofBytes (fill : Byte) : Nat → List Byte → Memory
  | _, [] => []
  | i, b :: bs => if b = fill then Memory.ofBytes fill (i + 1) bs else (i, b) :: Memory.ofBytes fill (i + 1) bs

/-- The array with its indexes `0, 1, …` overwritten by `bytes`, every index past them kept (the loop of 44_host.md R148). -/
def Memory.load (fill : Byte) (m : Memory) (bytes : List Byte) : Memory :=
  Memory.ofBytes fill 0 bytes ++ m.filter (fun c => decide (bytes.length ≤ c.1))

/-- The canonical form: indexes strictly rising, no cell equal to what an unlisted index reads as. -/
abbrev Memory.wf (fill : Byte) (m : Memory) : Prop := (m.map Prod.fst).Pairwise (· < ·) ∧ ∀ c ∈ m, c.2 ≠ fill

/-- Every listed index is below `n`. -/
abbrev Memory.below (n : Nat) (m : Memory) : Prop := ∀ c ∈ m, c.1 < n

/-- The array a bank names. -/
def State.bank (s : State) : Bank → Memory
  | .ram => s.ram
  | .rom => s.rom
  | .vid => s.vid

/-- The model's read of one byte of the block's memory: `S.ram[i]`, `S.rom[i]` or `S.vid[i]`. -/
def State.peek (c : Config) (s : State) (b : Bank) (i : Nat) : Byte := Memory.read (c.unlisted b) (s.bank b) i

/-- `S.ram[i] <- v`. -/
def State.pokeRam (c : Config) (s : State) (i : Nat) (v : Byte) : State :=
  { s with ram := Memory.write (c.unlisted .ram) s.ram i v }

/-- `S.vid[i] <- v`. -/
def State.pokeVid (c : Config) (s : State) (i : Nat) (v : Byte) : State :=
  { s with vid := Memory.write (c.unlisted .vid) s.vid i v }

/-- A read transaction returns `v` to the CPU collaborator (30_encoding.md R61). -/
def State.answer (s : State) (v : Byte) : State := { s with result := some v }

/-- A write transaction returns nothing: `write(address, byte) -> void` (00_scope.md R15; log 6). -/
def State.acknowledge (s : State) : State := { s with result := none }

/-- `ConReady()` is `E.inQ != []` and has no side effect (00_scope.md R16). -/
def State.conReady (s : State) : Bool := !s.inQ.isEmpty

/-- `ConPop()`: the head of `E.inQ` and the state without it; nothing where `ConReady()` is false (R16). -/
def State.conPop (s : State) : Option (Byte × State) :=
  match s.inQ with
  | [] => none
  | b :: rest => some (b, { s with inQ := rest })

/-- `ConPush(b)` appends `b` to `E.outQ` (R16). -/
def State.conPush (s : State) (b : Byte) : State := { s with outQ := s.outQ ++ [b] }

/-- A transaction is taken from the agenda; from the first one on the ROM load is closed (44_host.md R149). -/
def State.beginTransaction (s : State) (rest : List Event) : State := { s with agenda := rest, romPort := .closed }

/-- A host interaction is taken from the agenda. -/
def State.beginHost (s : State) (rest : List Event) : State := { s with agenda := rest }

end Sys2Proof.Machine
end

