-- ==== Sys2Proof/Machine/Operands.lean ====
section
/-! DEFINITION. The operands the rules compute from a transaction (30_encoding.md R62): the targets of an address, the array
indexes, and the serial register select. All over the configuration (20_memory.md R42, 40_bus.md R75, R77). -/

namespace Sys2Proof.Machine

open Sys2Proof

/-- The two address ranges of the one serial adapter (R19, R77). -/
inductive SerialWindow where
  | native
  | legacy
deriving DecidableEq, Repr

/-- What a read reaches (R75). -/
inductive ReadTarget where
  | ram
  | rom
  | serial (w : SerialWindow)
  | video
  | keyboard
  | none
deriving DecidableEq, Repr

/-- What a write reaches (R75). -/
inductive WriteTarget where
  | ram
  | romNop
  | serial (w : SerialWindow)
  | video
  | keyboard
  | unusedNop
  | none
deriving DecidableEq, Repr

/-- `ReadTarget(A)` of R75, in the order of the source's table. -/
def readTarget (m : AddressMap) (a : Addr) : ReadTarget :=
  if m.ramW.Contains a then .ram
  else if m.romA.Contains a then .rom
  else if m.serLeg.Contains a then .serial .legacy
  else if m.vidW.Contains a then .video
  else if m.romMid.Contains a then .rom
  else if m.kbdW.Contains a then .keyboard
  else if m.serNat.Contains a then .serial .native
  else if m.romKlo.Contains a then .rom
  else if m.romKhi.Contains a then .rom
  else .none

/-- `WriteTarget(A)` of R75, in the order of the source's table. -/
def writeTarget (m : AddressMap) (a : Addr) : WriteTarget :=
  if m.ramW.Contains a then .ram
  else if m.romA.Contains a then .romNop
  else if m.serLeg.Contains a then .serial .legacy
  else if m.vidW.Contains a then .video
  else if m.romMid.Contains a then .romNop
  else if m.kbdW.Contains a then .keyboard
  else if m.unused.Contains a then .unusedNop
  else if m.serNat.Contains a then .serial .native
  else if m.romKlo.Contains a then .romNop
  else if m.romKhi.Contains a then .romNop
  else .none

/-- `A & RAM_MASK` (R62, 00_scope.md R11). -/
def ramIndex (c : Config) (a : Addr) : Nat := a.toNat &&& (c.ramSize - 1)

/-- `A & ROM_MASK` (R62, R11). -/
def romIndex (c : Config) (a : Addr) : Nat := a.toNat &&& (c.romSize - 1)

/-- `A - VID_BASE` (R62). -/
def vidIndex (c : Config) (a : Addr) : Nat := a.toNat - c.vidBase

/-- The lowest address of a serial window. -/
def serialBase (m : AddressMap) : SerialWindow → Nat
  | .native => m.serNat.lo
  | .legacy => m.serLeg.lo

/-- The window offset of a serial address (R77). -/
def serialOffset (m : AddressMap) (w : SerialWindow) (a : Addr) : Nat := a.toNat - serialBase m w

/-- The native address a serial address stands for: the legacy window is remapped keeping the offset (R77; log 17). -/
def nativeAddress (m : AddressMap) (w : SerialWindow) (a : Addr) : Nat := m.serNat.lo + serialOffset m w a

/-- `sel = off[0]`: false selects Status and Control, true Receive and Transmit Data (R77, 41_serial.md R100; log 17). -/
def serialSelect (m : AddressMap) (w : SerialWindow) (a : Addr) : Bool := (serialOffset m w a).testBit 0

end Sys2Proof.Machine
end

