-- ==== Sys2Proof/Machine/Flags.lean ====
section
/-! DEFINITION. The only flags of the block: the bits of the serial Status register, synthesized at each read
(10_state.md R31, 41_serial.md R102, R103). -/

namespace Sys2Proof.Machine

open Sys2Proof

/-- Bit 0, RDRF: a console byte is available at the instant of the read (R31). -/
def rdrf (s : State) : Bool := s.conReady

/-- Bit 1, TDRE: 1 at every read, since transmission is instantaneous (R31, decision D7; log 15). -/
def tdre : Bool := true

/-- The Status byte `{0b000000, TDRE, RDRF}` (R103); bits 7 to 2 read 0 (decision D8; log 15). -/
def statusByte (s : State) : Byte := 0#6 ++ BitVec.ofBool tdre ++ BitVec.ofBool (rdrf s)

end Sys2Proof.Machine
end

