-- ==== Sys2Proof/Machine/Keyboard.lean ====
section
/-! DEFINITION. The keyboard matrix controller (42_keyboard.md R120 to R132). -/

namespace Sys2Proof.Machine

open Sys2Proof

/-- `Normalize(b)`: a console byte's key code (R121; the ASCII values: log 22). -/
def normalizeKey (c : Config) (b : Byte) : Byte :=
  if 0x61 ≤ b ∧ b ≤ 0x7A then b - 0x20
  else if b = 0x0A ∨ b = 0x0D then c.retCode
  else if b = 0x7F ∨ b = 0x08 then c.bsCode
  else b

/-- `Press(r, c)`: the key's bit is cleared, the read counter restarts, the release machine is armed (R124). -/
def press (p : KeyPos) (k : Keyboard) : Keyboard :=
  { k with rows := k.rows.set p.row (k.rows[p.row] &&& ~~~(1#8 <<< p.col.val)), rse := 0, phase := .pressedRecently }

/-- `KbdPoll()`: consumes at most one console byte and presses the key it maps to, if any (R123). -/
def kbdPoll (c : Config) (s : State) : State :=
  match s.conPop with
  | none => s
  | some (b, s') =>
    match c.keymap (normalizeKey c b) with
    | some p => { s' with kbd := press p s'.kbd }
    | none => s'

/-- The row numbers 0 to 7, in the order the rules' loops take them. -/
def rowNumbers : List (Fin 8) := [0, 1, 2, 3, 4, 5, 6, 7]

/-- `ScanValue()`: the AND of the column masks of the selected rows, 0xFF if none is selected (R125). -/
def scanValue (k : Keyboard) : Byte :=
  rowNumbers.foldl (fun v (r : Fin 8) => if k.rowsel.getLsbD r.val then v else v &&& k.rows[r]) 0xFF

/-- `ForcedRelease()`: every key released, the lock key included; `rse` is left as it is (R127). -/
def forcedRelease (k : Keyboard) : Keyboard :=
  { k with rows := Vector.replicate 8 0xFF, det := 0, phase := .idle }

/-- The first line of `AutoRelease`: the saturating read counter (R128). -/
def countRead (c : Config) (k : Keyboard) : Keyboard := { k with rse := min (k.rse + 1) c.backupReads }

/-- The detection line of `AutoRelease` (R128). -/
def countDetection (c : Config) (v : Byte) (k : Keyboard) : Keyboard :=
  if v ≠ 0xFF ∧ k.rse ≤ c.detWindow then { k with det := k.det + 1 } else k

/-- `AutoRelease(v)`, run by every scan read after its value is computed (R128). -/
def autoRelease (c : Config) (v : Byte) (k : Keyboard) : Keyboard :=
  match k.phase with
  | .idle => countRead c k
  | .pressedRecently =>
    let k' := countDetection c v (countRead c k)
    if c.detCount ≤ k'.det then forcedRelease k'
    else if c.backupReads ≤ k'.rse then forcedRelease k'
    else k'

/-- What a scan does once the console has been polled: the value is taken, then the release policy runs (R126). -/
def kbdScan (c : Config) (s : State) : State :=
  ({ s with kbd := autoRelease c (scanValue s.kbd) s.kbd } : State).answer (scanValue s.kbd)

/-- Keyboard scan read (R126). -/
def kbdRead (c : Config) (s : State) : State := kbdScan c (kbdPoll c s)

/-- `S.kbd.rowsel <- D`. -/
def State.setRowsel (s : State) (d : Byte) : State := { s with kbd := { s.kbd with rowsel := d } }

/-- Keyboard row-select write: the console is polled first (R131). -/
def kbdWrite (c : Config) (d : Byte) (s : State) : State := ((kbdPoll c s).setRowsel d).acknowledge

/-- RD_KBD (R126). -/
def execRdKbd (_a : Addr) (s : State) : Host.Outcome State Fault Refusal :=
  .next (kbdRead Config.standard s)

/-- WR_KBD (R131). -/
def execWrKbd (_a : Addr) (d : Byte) (s : State) : Host.Outcome State Fault Refusal :=
  .next (kbdWrite Config.standard d s)

end Sys2Proof.Machine
end

