-- ==== Sys2Proof/Machine/Ram.lean ====
section
/-! DEFINITION. RAM read and write (40_bus.md R78, R79). -/

namespace Sys2Proof.Machine

open Sys2Proof

/-- RAM read: `return S.ram[A & RAM_MASK]` (R78). -/
def ramRead (c : Config) (a : Addr) (s : State) : State := s.answer (s.peek c .ram (ramIndex c a))

/-- RAM write: `S.ram[A & RAM_MASK] <- D` (R79). -/
def ramWrite (c : Config) (a : Addr) (d : Byte) (s : State) : State := (s.pokeRam c (ramIndex c a) d).acknowledge

/-- RD_RAM (R78). -/
def execRdRam (a : Addr) (s : State) : Host.Outcome State Fault Refusal :=
  .next (ramRead Config.standard a s)

/-- WR_RAM (R79). -/
def execWrRam (a : Addr) (d : Byte) (s : State) : Host.Outcome State Fault Refusal :=
  .next (ramWrite Config.standard a d s)

end Sys2Proof.Machine
end

