-- ==== Sys2Proof/Machine/Rom.lean ====
section
/-! DEFINITION. ROM read, and the ROM write that does nothing (40_bus.md R80, R81). -/

namespace Sys2Proof.Machine

open Sys2Proof

/-- ROM read: `return S.rom[A & ROM_MASK]`, one array for all four windows (R80). -/
def romRead (c : Config) (a : Addr) (s : State) : State := s.answer (s.peek c .rom (romIndex c a))

/-- ROM write: nothing, silently discarded (R81). -/
def romWrite (s : State) : State := s.acknowledge

/-- RD_ROM_A (R80). -/
def execRdRomA (a : Addr) (s : State) : Host.Outcome State Fault Refusal :=
  .next (romRead Config.standard a s)

/-- RD_ROM_MID_F100 (R80). -/
def execRdRomMidF100 (a : Addr) (s : State) : Host.Outcome State Fault Refusal :=
  .next (romRead Config.standard a s)

/-- RD_ROM_MID_F200 (R80). -/
def execRdRomMidF200 (a : Addr) (s : State) : Host.Outcome State Fault Refusal :=
  .next (romRead Config.standard a s)

/-- RD_ROM_MID_F400 (R80). -/
def execRdRomMidF400 (a : Addr) (s : State) : Host.Outcome State Fault Refusal :=
  .next (romRead Config.standard a s)

/-- RD_ROM_KLO (R80). -/
def execRdRomKlo (a : Addr) (s : State) : Host.Outcome State Fault Refusal :=
  .next (romRead Config.standard a s)

/-- RD_ROM_KHI_FD00 (R80). -/
def execRdRomKhiFD00 (a : Addr) (s : State) : Host.Outcome State Fault Refusal :=
  .next (romRead Config.standard a s)

/-- RD_ROM_KHI_FE00 (R80). -/
def execRdRomKhiFE00 (a : Addr) (s : State) : Host.Outcome State Fault Refusal :=
  .next (romRead Config.standard a s)

/-- WR_ROM_A (R81). -/
def execWrRomA (_a : Addr) (_d : Byte) (s : State) : Host.Outcome State Fault Refusal :=
  .next (romWrite s)

/-- WR_ROM_MID_F100 (R81). -/
def execWrRomMidF100 (_a : Addr) (_d : Byte) (s : State) : Host.Outcome State Fault Refusal :=
  .next (romWrite s)

/-- WR_ROM_MID_F200 (R81). -/
def execWrRomMidF200 (_a : Addr) (_d : Byte) (s : State) : Host.Outcome State Fault Refusal :=
  .next (romWrite s)

/-- WR_ROM_MID_F400 (R81). -/
def execWrRomMidF400 (_a : Addr) (_d : Byte) (s : State) : Host.Outcome State Fault Refusal :=
  .next (romWrite s)

/-- WR_ROM_KLO (R81). -/
def execWrRomKlo (_a : Addr) (_d : Byte) (s : State) : Host.Outcome State Fault Refusal :=
  .next (romWrite s)

/-- WR_ROM_KHI_FD00 (R81). -/
def execWrRomKhiFD00 (_a : Addr) (_d : Byte) (s : State) : Host.Outcome State Fault Refusal :=
  .next (romWrite s)

/-- WR_ROM_KHI_FE00 (R81). -/
def execWrRomKhiFE00 (_a : Addr) (_d : Byte) (s : State) : Host.Outcome State Fault Refusal :=
  .next (romWrite s)

end Sys2Proof.Machine
end

