-- ==== Sys2Proof/Machine/Serial.lean ====
section
/-! DEFINITION. The serial adapter (41_serial.md R100 to R108): one device behind two windows (R101). -/

namespace Sys2Proof.Machine

open Sys2Proof

/-- Status read: RDRF and TDRE are computed, the transport is only polled (R103). -/
def serialStatusRead (s : State) : State := s.answer (statusByte s)

/-- A Receive Data read with no byte available: the latch, or any byte and no state change (R104). The count of draws is the
model's own and makes each drawn byte a fresh free value (log 3, log 4). -/
def serialRxEmpty (c : Config) (s : State) : State :=
  match c.rxEmptyRead with
  | .latch => s.answer s.ser.rxlatch
  | .any => ({ s with draws := s.draws + 1 } : State).answer (Config.freeByte s.draws)

/-- A byte pulled from the transport becomes the latest received byte (R104). -/
def State.latchRx (s : State) (b : Byte) : State := { s with ser := { s.ser with rxlatch := b } }

/-- Receive Data read: pulls exactly one byte when one is available (R104). -/
def serialRxRead (c : Config) (s : State) : State :=
  match s.conPop with
  | some (b, s') => (s'.latchRx b).answer b
  | none => serialRxEmpty c s

/-- Control write: stored, otherwise inert (R105). -/
def serialControlWrite (d : Byte) (s : State) : State :=
  ({ s with ser := { s.ser with control := d } } : State).acknowledge

/-- Transmit Data write: the byte is forwarded at once and the transmit-empty flag set (R106). -/
def serialTxWrite (d : Byte) (s : State) : State :=
  (({ s with ser := { s.ser with txdata := d, tdreFlag := true } } : State).conPush d).acknowledge

/-- A serial read performs the rule its register select names (R100). -/
def serialRead (c : Config) (sel : Bool) (s : State) : State :=
  match sel with
  | false => serialStatusRead s
  | true => serialRxRead c s

/-- A serial write performs the rule its register select names (R100). -/
def serialWrite (sel : Bool) (d : Byte) (s : State) : State :=
  match sel with
  | false => serialControlWrite d s
  | true => serialTxWrite d s

/-- RD_SER_NAT_STATUS (R103). -/
def execRdSerNatStatus (_a : Addr) (s : State) : Host.Outcome State Fault Refusal :=
  .next (serialStatusRead s)

/-- RD_SER_NAT_RXDATA (R104). -/
def execRdSerNatRxdata (_a : Addr) (s : State) : Host.Outcome State Fault Refusal :=
  .next (serialRxRead Config.standard s)

/-- RD_SER_LEG_STATUS (R103). -/
def execRdSerLegStatus (_a : Addr) (s : State) : Host.Outcome State Fault Refusal :=
  .next (serialStatusRead s)

/-- RD_SER_LEG_RXDATA (R104). -/
def execRdSerLegRxdata (_a : Addr) (s : State) : Host.Outcome State Fault Refusal :=
  .next (serialRxRead Config.standard s)

/-- WR_SER_NAT_CONTROL (R105). -/
def execWrSerNatControl (_a : Addr) (d : Byte) (s : State) : Host.Outcome State Fault Refusal :=
  .next (serialControlWrite d s)

/-- WR_SER_NAT_TXDATA (R106). -/
def execWrSerNatTxdata (_a : Addr) (d : Byte) (s : State) : Host.Outcome State Fault Refusal :=
  .next (serialTxWrite d s)

/-- WR_SER_LEG_CONTROL (R105). -/
def execWrSerLegControl (_a : Addr) (d : Byte) (s : State) : Host.Outcome State Fault Refusal :=
  .next (serialControlWrite d s)

/-- WR_SER_LEG_TXDATA (R106). -/
def execWrSerLegTxdata (_a : Addr) (d : Byte) (s : State) : Host.Outcome State Fault Refusal :=
  .next (serialTxWrite d s)

end Sys2Proof.Machine
end

