-- ==== Sys2Proof/Machine/Unmapped.lean ====
section
/-! DEFINITION. Unmapped space and the unused register (40_bus.md R84 to R86). -/

namespace Sys2Proof.Machine

open Sys2Proof

/-- What a read of an address no device owns returns (00_scope.md R7). -/
def sentinel : Byte := 0xFF

/-- Unmapped read: `return 0xFF` (R84), the unused register included (log 21). -/
def unmappedRead (s : State) : State := s.answer sentinel

/-- Unmapped write: nothing, discarded (R85). -/
def unmappedWrite (s : State) : State := s.acknowledge

/-- Unused-register write: nothing, and no console poll (R86). -/
def unusedWrite (s : State) : State := s.acknowledge

/-- RD_UNMAPPED_8000 (R84). -/
def execRdUnmapped8000 (_a : Addr) (s : State) : Host.Outcome State Fault Refusal :=
  .next (unmappedRead s)

/-- RD_UNMAPPED_C000 (R84). -/
def execRdUnmappedC000 (_a : Addr) (s : State) : Host.Outcome State Fault Refusal :=
  .next (unmappedRead s)

/-- RD_UNMAPPED_D800 (R84). -/
def execRdUnmappedD800 (_a : Addr) (s : State) : Host.Outcome State Fault Refusal :=
  .next (unmappedRead s)

/-- RD_UNMAPPED_DC00 (R84). -/
def execRdUnmappedDC00 (_a : Addr) (s : State) : Host.Outcome State Fault Refusal :=
  .next (unmappedRead s)

/-- RD_UNMAPPED_DE00 (R84). -/
def execRdUnmappedDE00 (_a : Addr) (s : State) : Host.Outcome State Fault Refusal :=
  .next (unmappedRead s)

/-- RD_UNMAPPED_E000 (R84). -/
def execRdUnmappedE000 (_a : Addr) (s : State) : Host.Outcome State Fault Refusal :=
  .next (unmappedRead s)

/-- WR_UNUSED (R86). -/
def execWrUnused (_a : Addr) (_d : Byte) (s : State) : Host.Outcome State Fault Refusal :=
  .next (unusedWrite s)

/-- WR_UNMAPPED_8000 (R85). -/
def execWrUnmapped8000 (_a : Addr) (_d : Byte) (s : State) : Host.Outcome State Fault Refusal :=
  .next (unmappedWrite s)

/-- WR_UNMAPPED_C000 (R85). -/
def execWrUnmappedC000 (_a : Addr) (_d : Byte) (s : State) : Host.Outcome State Fault Refusal :=
  .next (unmappedWrite s)

/-- WR_UNMAPPED_D800 (R85). -/
def execWrUnmappedD800 (_a : Addr) (_d : Byte) (s : State) : Host.Outcome State Fault Refusal :=
  .next (unmappedWrite s)

/-- WR_UNMAPPED_DC00 (R85). -/
def execWrUnmappedDC00 (_a : Addr) (_d : Byte) (s : State) : Host.Outcome State Fault Refusal :=
  .next (unmappedWrite s)

/-- WR_UNMAPPED_DE00 (R85). -/
def execWrUnmappedDE00 (_a : Addr) (_d : Byte) (s : State) : Host.Outcome State Fault Refusal :=
  .next (unmappedWrite s)

/-- WR_UNMAPPED_E001 (R85). -/
def execWrUnmappedE001 (_a : Addr) (_d : Byte) (s : State) : Host.Outcome State Fault Refusal :=
  .next (unmappedWrite s)

/-- WR_UNMAPPED_E002 (R85). -/
def execWrUnmappedE002 (_a : Addr) (_d : Byte) (s : State) : Host.Outcome State Fault Refusal :=
  .next (unmappedWrite s)

/-- WR_UNMAPPED_E004 (R85). -/
def execWrUnmappedE004 (_a : Addr) (_d : Byte) (s : State) : Host.Outcome State Fault Refusal :=
  .next (unmappedWrite s)

/-- WR_UNMAPPED_E008 (R85). -/
def execWrUnmappedE008 (_a : Addr) (_d : Byte) (s : State) : Host.Outcome State Fault Refusal :=
  .next (unmappedWrite s)

/-- WR_UNMAPPED_E010 (R85). -/
def execWrUnmappedE010 (_a : Addr) (_d : Byte) (s : State) : Host.Outcome State Fault Refusal :=
  .next (unmappedWrite s)

/-- WR_UNMAPPED_E020 (R85). -/
def execWrUnmappedE020 (_a : Addr) (_d : Byte) (s : State) : Host.Outcome State Fault Refusal :=
  .next (unmappedWrite s)

/-- WR_UNMAPPED_E040 (R85). -/
def execWrUnmappedE040 (_a : Addr) (_d : Byte) (s : State) : Host.Outcome State Fault Refusal :=
  .next (unmappedWrite s)

/-- WR_UNMAPPED_E080 (R85). -/
def execWrUnmappedE080 (_a : Addr) (_d : Byte) (s : State) : Host.Outcome State Fault Refusal :=
  .next (unmappedWrite s)

/-- WR_UNMAPPED_E100 (R85). -/
def execWrUnmappedE100 (_a : Addr) (_d : Byte) (s : State) : Host.Outcome State Fault Refusal :=
  .next (unmappedWrite s)

/-- WR_UNMAPPED_E200 (R85). -/
def execWrUnmappedE200 (_a : Addr) (_d : Byte) (s : State) : Host.Outcome State Fault Refusal :=
  .next (unmappedWrite s)

/-- WR_UNMAPPED_E400 (R85). -/
def execWrUnmappedE400 (_a : Addr) (_d : Byte) (s : State) : Host.Outcome State Fault Refusal :=
  .next (unmappedWrite s)

/-- WR_UNMAPPED_E800 (R85). -/
def execWrUnmappedE800 (_a : Addr) (_d : Byte) (s : State) : Host.Outcome State Fault Refusal :=
  .next (unmappedWrite s)

end Sys2Proof.Machine
end

