-- ==== Sys2Proof/Machine/Video.lean ====
section
/-! DEFINITION. Video frame buffer read and write (40_bus.md R82, R83). -/

namespace Sys2Proof.Machine

open Sys2Proof

/-- Video read: `return S.vid[A - VID_BASE]` (R82). -/
def videoRead (c : Config) (a : Addr) (s : State) : State := s.answer (s.peek c .vid (vidIndex c a))

/-- Video write: `S.vid[A - VID_BASE] <- D` (R83). -/
def videoWrite (c : Config) (a : Addr) (d : Byte) (s : State) : State := (s.pokeVid c (vidIndex c a) d).acknowledge

/-- RD_VID (R82). -/
def execRdVid (a : Addr) (s : State) : Host.Outcome State Fault Refusal :=
  .next (videoRead Config.standard a s)

/-- WR_VID (R83). -/
def execWrVid (a : Addr) (d : Byte) (s : State) : Host.Outcome State Fault Refusal :=
  .next (videoWrite Config.standard a d s)

end Sys2Proof.Machine
end

