-- ==== Sys2Proof/Syntax.lean ====
section
/-! DEFINITION. The instructions of the block: its bus transactions, one constructor per row of spec/opcode_table.json
(30_encoding.md R63, R64). A read carries its address `A`; a write carries its address and its data byte `D` (R60). -/

namespace Sys2Proof

/-- A decoded bus transaction. The address is the whole 16-bit `A` of the word; that it lies in the row's block is
`Instr.wellFormed`. -/
inductive Instr where
  /-- RD_RAM: read, window RAM_W, 0x0000-0x7FFF (R78). -/
  | rdRam (a : Addr)
  /-- RD_ROM_A: read, window ROM_A, 0xA000-0xBFFF (R80). -/
  | rdRomA (a : Addr)
  /-- RD_ROM_MID_F100: read, window ROM_MID, 0xF100-0xF1FF (R80). -/
  | rdRomMidF100 (a : Addr)
  /-- RD_ROM_MID_F200: read, window ROM_MID, 0xF200-0xF3FF (R80). -/
  | rdRomMidF200 (a : Addr)
  /-- RD_ROM_MID_F400: read, window ROM_MID, 0xF400-0xF7FF (R80). -/
  | rdRomMidF400 (a : Addr)
  /-- RD_ROM_KLO: read, window ROM_KLO, 0xF800-0xFBFF (R80). -/
  | rdRomKlo (a : Addr)
  /-- RD_ROM_KHI_FD00: read, window ROM_KHI, 0xFD00-0xFDFF (R80). -/
  | rdRomKhiFD00 (a : Addr)
  /-- RD_ROM_KHI_FE00: read, window ROM_KHI, 0xFE00-0xFFFF (R80). -/
  | rdRomKhiFE00 (a : Addr)
  /-- RD_VID: read, window VID_W, 0xD000-0xD7FF (R82). -/
  | rdVid (a : Addr)
  /-- RD_KBD: read, window KBD_W, 0xDF00-0xDFFF (R126). -/
  | rdKbd (a : Addr)
  /-- RD_SER_NAT_STATUS: read, window SER_NAT, 0xFC00-0xFCFF, select 0 (R103). -/
  | rdSerNatStatus (a : Addr)
  /-- RD_SER_NAT_RXDATA: read, window SER_NAT, 0xFC00-0xFCFF, select 1 (R104). -/
  | rdSerNatRxdata (a : Addr)
  /-- RD_SER_LEG_STATUS: read, window SER_LEG, 0xF000-0xF0FF, select 0 (R103). -/
  | rdSerLegStatus (a : Addr)
  /-- RD_SER_LEG_RXDATA: read, window SER_LEG, 0xF000-0xF0FF, select 1 (R104). -/
  | rdSerLegRxdata (a : Addr)
  /-- RD_UNMAPPED_8000: read, window unmapped, 0x8000-0x9FFF (R84). -/
  | rdUnmapped8000 (a : Addr)
  /-- RD_UNMAPPED_C000: read, window unmapped, 0xC000-0xCFFF (R84). -/
  | rdUnmappedC000 (a : Addr)
  /-- RD_UNMAPPED_D800: read, window unmapped, 0xD800-0xDBFF (R84). -/
  | rdUnmappedD800 (a : Addr)
  /-- RD_UNMAPPED_DC00: read, window unmapped, 0xDC00-0xDDFF (R84). -/
  | rdUnmappedDC00 (a : Addr)
  /-- RD_UNMAPPED_DE00: read, window unmapped, 0xDE00-0xDEFF (R84). -/
  | rdUnmappedDE00 (a : Addr)
  /-- RD_UNMAPPED_E000: read, window unmapped, 0xE000-0xEFFF (R84). -/
  | rdUnmappedE000 (a : Addr)
  /-- WR_RAM: write, window RAM_W, 0x0000-0x7FFF (R79). -/
  | wrRam (a : Addr) (d : Byte)
  /-- WR_ROM_A: write, window ROM_A, 0xA000-0xBFFF (R81). -/
  | wrRomA (a : Addr) (d : Byte)
  /-- WR_ROM_MID_F100: write, window ROM_MID, 0xF100-0xF1FF (R81). -/
  | wrRomMidF100 (a : Addr) (d : Byte)
  /-- WR_ROM_MID_F200: write, window ROM_MID, 0xF200-0xF3FF (R81). -/
  | wrRomMidF200 (a : Addr) (d : Byte)
  /-- WR_ROM_MID_F400: write, window ROM_MID, 0xF400-0xF7FF (R81). -/
  | wrRomMidF400 (a : Addr) (d : Byte)
  /-- WR_ROM_KLO: write, window ROM_KLO, 0xF800-0xFBFF (R81). -/
  | wrRomKlo (a : Addr) (d : Byte)
  /-- WR_ROM_KHI_FD00: write, window ROM_KHI, 0xFD00-0xFDFF (R81). -/
  | wrRomKhiFD00 (a : Addr) (d : Byte)
  /-- WR_ROM_KHI_FE00: write, window ROM_KHI, 0xFE00-0xFFFF (R81). -/
  | wrRomKhiFE00 (a : Addr) (d : Byte)
  /-- WR_VID: write, window VID_W, 0xD000-0xD7FF (R83). -/
  | wrVid (a : Addr) (d : Byte)
  /-- WR_KBD: write, window KBD_W, 0xDF00-0xDFFF (R131). -/
  | wrKbd (a : Addr) (d : Byte)
  /-- WR_UNUSED: write, window UNUSED, 0xE000-0xE000 (R86). -/
  | wrUnused (a : Addr) (d : Byte)
  /-- WR_SER_NAT_CONTROL: write, window SER_NAT, 0xFC00-0xFCFF, select 0 (R105). -/
  | wrSerNatControl (a : Addr) (d : Byte)
  /-- WR_SER_NAT_TXDATA: write, window SER_NAT, 0xFC00-0xFCFF, select 1 (R106). -/
  | wrSerNatTxdata (a : Addr) (d : Byte)
  /-- WR_SER_LEG_CONTROL: write, window SER_LEG, 0xF000-0xF0FF, select 0 (R105). -/
  | wrSerLegControl (a : Addr) (d : Byte)
  /-- WR_SER_LEG_TXDATA: write, window SER_LEG, 0xF000-0xF0FF, select 1 (R106). -/
  | wrSerLegTxdata (a : Addr) (d : Byte)
  /-- WR_UNMAPPED_8000: write, window unmapped, 0x8000-0x9FFF (R85). -/
  | wrUnmapped8000 (a : Addr) (d : Byte)
  /-- WR_UNMAPPED_C000: write, window unmapped, 0xC000-0xCFFF (R85). -/
  | wrUnmappedC000 (a : Addr) (d : Byte)
  /-- WR_UNMAPPED_D800: write, window unmapped, 0xD800-0xDBFF (R85). -/
  | wrUnmappedD800 (a : Addr) (d : Byte)
  /-- WR_UNMAPPED_DC00: write, window unmapped, 0xDC00-0xDDFF (R85). -/
  | wrUnmappedDC00 (a : Addr) (d : Byte)
  /-- WR_UNMAPPED_DE00: write, window unmapped, 0xDE00-0xDEFF (R85). -/
  | wrUnmappedDE00 (a : Addr) (d : Byte)
  /-- WR_UNMAPPED_E001: write, window unmapped, 0xE001-0xE001 (R85). -/
  | wrUnmappedE001 (a : Addr) (d : Byte)
  /-- WR_UNMAPPED_E002: write, window unmapped, 0xE002-0xE003 (R85). -/
  | wrUnmappedE002 (a : Addr) (d : Byte)
  /-- WR_UNMAPPED_E004: write, window unmapped, 0xE004-0xE007 (R85). -/
  | wrUnmappedE004 (a : Addr) (d : Byte)
  /-- WR_UNMAPPED_E008: write, window unmapped, 0xE008-0xE00F (R85). -/
  | wrUnmappedE008 (a : Addr) (d : Byte)
  /-- WR_UNMAPPED_E010: write, window unmapped, 0xE010-0xE01F (R85). -/
  | wrUnmappedE010 (a : Addr) (d : Byte)
  /-- WR_UNMAPPED_E020: write, window unmapped, 0xE020-0xE03F (R85). -/
  | wrUnmappedE020 (a : Addr) (d : Byte)
  /-- WR_UNMAPPED_E040: write, window unmapped, 0xE040-0xE07F (R85). -/
  | wrUnmappedE040 (a : Addr) (d : Byte)
  /-- WR_UNMAPPED_E080: write, window unmapped, 0xE080-0xE0FF (R85). -/
  | wrUnmappedE080 (a : Addr) (d : Byte)
  /-- WR_UNMAPPED_E100: write, window unmapped, 0xE100-0xE1FF (R85). -/
  | wrUnmappedE100 (a : Addr) (d : Byte)
  /-- WR_UNMAPPED_E200: write, window unmapped, 0xE200-0xE3FF (R85). -/
  | wrUnmappedE200 (a : Addr) (d : Byte)
  /-- WR_UNMAPPED_E400: write, window unmapped, 0xE400-0xE7FF (R85). -/
  | wrUnmappedE400 (a : Addr) (d : Byte)
  /-- WR_UNMAPPED_E800: write, window unmapped, 0xE800-0xEFFF (R85). -/
  | wrUnmappedE800 (a : Addr) (d : Byte)
deriving DecidableEq, Repr

end Sys2Proof
end

