-- ==== Sys2Proof/Machine/Dispatch.lean ====
section
/-! DEFINITION. The one dispatch from instructions to their meanings: one arm per row of spec/opcode_table.json. -/

namespace Sys2Proof.Machine

open Sys2Proof

/-- What one bus transaction does to the machine (40_bus.md R75: the rule its row names). -/
def exec (i : Instr) (s : State) : Host.Outcome State Fault Refusal :=
  match i with
  | .rdRam a => Sys2Proof.Machine.execRdRam a s
  | .rdRomA a => Sys2Proof.Machine.execRdRomA a s
  | .rdRomMidF100 a => Sys2Proof.Machine.execRdRomMidF100 a s
  | .rdRomMidF200 a => Sys2Proof.Machine.execRdRomMidF200 a s
  | .rdRomMidF400 a => Sys2Proof.Machine.execRdRomMidF400 a s
  | .rdRomKlo a => Sys2Proof.Machine.execRdRomKlo a s
  | .rdRomKhiFD00 a => Sys2Proof.Machine.execRdRomKhiFD00 a s
  | .rdRomKhiFE00 a => Sys2Proof.Machine.execRdRomKhiFE00 a s
  | .rdVid a => Sys2Proof.Machine.execRdVid a s
  | .rdKbd a => Sys2Proof.Machine.execRdKbd a s
  | .rdSerNatStatus a => Sys2Proof.Machine.execRdSerNatStatus a s
  | .rdSerNatRxdata a => Sys2Proof.Machine.execRdSerNatRxdata a s
  | .rdSerLegStatus a => Sys2Proof.Machine.execRdSerLegStatus a s
  | .rdSerLegRxdata a => Sys2Proof.Machine.execRdSerLegRxdata a s
  | .rdUnmapped8000 a => Sys2Proof.Machine.execRdUnmapped8000 a s
  | .rdUnmappedC000 a => Sys2Proof.Machine.execRdUnmappedC000 a s
  | .rdUnmappedD800 a => Sys2Proof.Machine.execRdUnmappedD800 a s
  | .rdUnmappedDC00 a => Sys2Proof.Machine.execRdUnmappedDC00 a s
  | .rdUnmappedDE00 a => Sys2Proof.Machine.execRdUnmappedDE00 a s
  | .rdUnmappedE000 a => Sys2Proof.Machine.execRdUnmappedE000 a s
  | .wrRam a d => Sys2Proof.Machine.execWrRam a d s
  | .wrRomA a d => Sys2Proof.Machine.execWrRomA a d s
  | .wrRomMidF100 a d => Sys2Proof.Machine.execWrRomMidF100 a d s
  | .wrRomMidF200 a d => Sys2Proof.Machine.execWrRomMidF200 a d s
  | .wrRomMidF400 a d => Sys2Proof.Machine.execWrRomMidF400 a d s
  | .wrRomKlo a d => Sys2Proof.Machine.execWrRomKlo a d s
  | .wrRomKhiFD00 a d => Sys2Proof.Machine.execWrRomKhiFD00 a d s
  | .wrRomKhiFE00 a d => Sys2Proof.Machine.execWrRomKhiFE00 a d s
  | .wrVid a d => Sys2Proof.Machine.execWrVid a d s
  | .wrKbd a d => Sys2Proof.Machine.execWrKbd a d s
  | .wrUnused a d => Sys2Proof.Machine.execWrUnused a d s
  | .wrSerNatControl a d => Sys2Proof.Machine.execWrSerNatControl a d s
  | .wrSerNatTxdata a d => Sys2Proof.Machine.execWrSerNatTxdata a d s
  | .wrSerLegControl a d => Sys2Proof.Machine.execWrSerLegControl a d s
  | .wrSerLegTxdata a d => Sys2Proof.Machine.execWrSerLegTxdata a d s
  | .wrUnmapped8000 a d => Sys2Proof.Machine.execWrUnmapped8000 a d s
  | .wrUnmappedC000 a d => Sys2Proof.Machine.execWrUnmappedC000 a d s
  | .wrUnmappedD800 a d => Sys2Proof.Machine.execWrUnmappedD800 a d s
  | .wrUnmappedDC00 a d => Sys2Proof.Machine.execWrUnmappedDC00 a d s
  | .wrUnmappedDE00 a d => Sys2Proof.Machine.execWrUnmappedDE00 a d s
  | .wrUnmappedE001 a d => Sys2Proof.Machine.execWrUnmappedE001 a d s
  | .wrUnmappedE002 a d => Sys2Proof.Machine.execWrUnmappedE002 a d s
  | .wrUnmappedE004 a d => Sys2Proof.Machine.execWrUnmappedE004 a d s
  | .wrUnmappedE008 a d => Sys2Proof.Machine.execWrUnmappedE008 a d s
  | .wrUnmappedE010 a d => Sys2Proof.Machine.execWrUnmappedE010 a d s
  | .wrUnmappedE020 a d => Sys2Proof.Machine.execWrUnmappedE020 a d s
  | .wrUnmappedE040 a d => Sys2Proof.Machine.execWrUnmappedE040 a d s
  | .wrUnmappedE080 a d => Sys2Proof.Machine.execWrUnmappedE080 a d s
  | .wrUnmappedE100 a d => Sys2Proof.Machine.execWrUnmappedE100 a d s
  | .wrUnmappedE200 a d => Sys2Proof.Machine.execWrUnmappedE200 a d s
  | .wrUnmappedE400 a d => Sys2Proof.Machine.execWrUnmappedE400 a d s
  | .wrUnmappedE800 a d => Sys2Proof.Machine.execWrUnmappedE800 a d s

end Sys2Proof.Machine
end

