-- ==== Sys2Proof/WellFormed.lean ====
section
/-! DEFINITION. When an instruction is one that a transaction word can stand for: its address lies in the address block of its
row of spec/opcode_table.json, and on a serial row bit 0 of the address is the row's register select (30_encoding.md R64, R67). -/

namespace Sys2Proof

/-- `a` lies in the inclusive block `lo` to `hi`. -/
def inBlock (lo hi : Nat) (a : Addr) : Bool := decide (lo ≤ a.toNat) && decide (a.toNat ≤ hi)

/-- The address fits the row (its range and, for a serial row, its select bit). -/
def Instr.wellFormed : Instr → Bool
  | .rdRam a => inBlock 0x0000 0x7FFF a
  | .rdRomA a => inBlock 0xA000 0xBFFF a
  | .rdRomMidF100 a => inBlock 0xF100 0xF1FF a
  | .rdRomMidF200 a => inBlock 0xF200 0xF3FF a
  | .rdRomMidF400 a => inBlock 0xF400 0xF7FF a
  | .rdRomKlo a => inBlock 0xF800 0xFBFF a
  | .rdRomKhiFD00 a => inBlock 0xFD00 0xFDFF a
  | .rdRomKhiFE00 a => inBlock 0xFE00 0xFFFF a
  | .rdVid a => inBlock 0xD000 0xD7FF a
  | .rdKbd a => inBlock 0xDF00 0xDFFF a
  | .rdSerNatStatus a => inBlock 0xFC00 0xFCFF a && !a.getLsbD 0
  | .rdSerNatRxdata a => inBlock 0xFC00 0xFCFF a && a.getLsbD 0
  | .rdSerLegStatus a => inBlock 0xF000 0xF0FF a && !a.getLsbD 0
  | .rdSerLegRxdata a => inBlock 0xF000 0xF0FF a && a.getLsbD 0
  | .rdUnmapped8000 a => inBlock 0x8000 0x9FFF a
  | .rdUnmappedC000 a => inBlock 0xC000 0xCFFF a
  | .rdUnmappedD800 a => inBlock 0xD800 0xDBFF a
  | .rdUnmappedDC00 a => inBlock 0xDC00 0xDDFF a
  | .rdUnmappedDE00 a => inBlock 0xDE00 0xDEFF a
  | .rdUnmappedE000 a => inBlock 0xE000 0xEFFF a
  | .wrRam a _ => inBlock 0x0000 0x7FFF a
  | .wrRomA a _ => inBlock 0xA000 0xBFFF a
  | .wrRomMidF100 a _ => inBlock 0xF100 0xF1FF a
  | .wrRomMidF200 a _ => inBlock 0xF200 0xF3FF a
  | .wrRomMidF400 a _ => inBlock 0xF400 0xF7FF a
  | .wrRomKlo a _ => inBlock 0xF800 0xFBFF a
  | .wrRomKhiFD00 a _ => inBlock 0xFD00 0xFDFF a
  | .wrRomKhiFE00 a _ => inBlock 0xFE00 0xFFFF a
  | .wrVid a _ => inBlock 0xD000 0xD7FF a
  | .wrKbd a _ => inBlock 0xDF00 0xDFFF a
  | .wrUnused a _ => inBlock 0xE000 0xE000 a
  | .wrSerNatControl a _ => inBlock 0xFC00 0xFCFF a && !a.getLsbD 0
  | .wrSerNatTxdata a _ => inBlock 0xFC00 0xFCFF a && a.getLsbD 0
  | .wrSerLegControl a _ => inBlock 0xF000 0xF0FF a && !a.getLsbD 0
  | .wrSerLegTxdata a _ => inBlock 0xF000 0xF0FF a && a.getLsbD 0
  | .wrUnmapped8000 a _ => inBlock 0x8000 0x9FFF a
  | .wrUnmappedC000 a _ => inBlock 0xC000 0xCFFF a
  | .wrUnmappedD800 a _ => inBlock 0xD800 0xDBFF a
  | .wrUnmappedDC00 a _ => inBlock 0xDC00 0xDDFF a
  | .wrUnmappedDE00 a _ => inBlock 0xDE00 0xDEFF a
  | .wrUnmappedE001 a _ => inBlock 0xE001 0xE001 a
  | .wrUnmappedE002 a _ => inBlock 0xE002 0xE003 a
  | .wrUnmappedE004 a _ => inBlock 0xE004 0xE007 a
  | .wrUnmappedE008 a _ => inBlock 0xE008 0xE00F a
  | .wrUnmappedE010 a _ => inBlock 0xE010 0xE01F a
  | .wrUnmappedE020 a _ => inBlock 0xE020 0xE03F a
  | .wrUnmappedE040 a _ => inBlock 0xE040 0xE07F a
  | .wrUnmappedE080 a _ => inBlock 0xE080 0xE0FF a
  | .wrUnmappedE100 a _ => inBlock 0xE100 0xE1FF a
  | .wrUnmappedE200 a _ => inBlock 0xE200 0xE3FF a
  | .wrUnmappedE400 a _ => inBlock 0xE400 0xE7FF a
  | .wrUnmappedE800 a _ => inBlock 0xE800 0xEFFF a

end Sys2Proof
end

