-- ==== Sys2Proof/Decode.lean ====
section
/-! DEFINITION. From transaction words to instructions and back (30_encoding.md R60 to R68): the three fields of a word, the
opcode table as mask and match pairs, the decoder that looks a word up in it, the encoder, and the written pseudo-operations. -/

namespace Sys2Proof

/-- `W`, bit 24: 0 = read, 1 = write (R60). -/
def wordWrite (t : BusWord) : Bool := t.getLsbD 24

/-- `A`, bits 23 to 8: the bus address (R60). -/
def wordAddr (t : BusWord) : Addr := t.extractLsb' 8 16

/-- `D`, bits 7 to 0: the write data byte, ignored by a read (R60). -/
def wordData (t : BusWord) : Byte := t.extractLsb' 0 8

/-- The word `{W, A, D}` (R60): `W` at bit 24, `A` from bit 8, `D` from bit 0. -/
def packWord (w : Bool) (a : Addr) (d : Byte) : BusWord :=
  BitVec.ofNat 25 (w.toNat * 2 ^ 24 + a.toNat * 2 ^ 8 + d.toNat)

/-- A row of the opcode table: it is selected by `T` exactly when `T & mask = match` (R64). -/
structure OpcodeRow where
  pattern : BusWord
  mask : BusWord
  build : Addr → Byte → Instr

/-- The row is selected by the word (R64). -/
def OpcodeRow.selects (r : OpcodeRow) (t : BusWord) : Bool := t &&& r.mask == r.pattern

/-- The read rows of spec/opcode_table.json, in its order; the data field is ignored (R66). -/
def readRows : List OpcodeRow := [
  ⟨0x0000000, 0x1800000, fun a _ => .rdRam a⟩,
  ⟨0x0A00000, 0x1E00000, fun a _ => .rdRomA a⟩,
  ⟨0x0F10000, 0x1FF0000, fun a _ => .rdRomMidF100 a⟩,
  ⟨0x0F20000, 0x1FE0000, fun a _ => .rdRomMidF200 a⟩,
  ⟨0x0F40000, 0x1FC0000, fun a _ => .rdRomMidF400 a⟩,
  ⟨0x0F80000, 0x1FC0000, fun a _ => .rdRomKlo a⟩,
  ⟨0x0FD0000, 0x1FF0000, fun a _ => .rdRomKhiFD00 a⟩,
  ⟨0x0FE0000, 0x1FE0000, fun a _ => .rdRomKhiFE00 a⟩,
  ⟨0x0D00000, 0x1F80000, fun a _ => .rdVid a⟩,
  ⟨0x0DF0000, 0x1FF0000, fun a _ => .rdKbd a⟩,
  ⟨0x0FC0000, 0x1FF0100, fun a _ => .rdSerNatStatus a⟩,
  ⟨0x0FC0100, 0x1FF0100, fun a _ => .rdSerNatRxdata a⟩,
  ⟨0x0F00000, 0x1FF0100, fun a _ => .rdSerLegStatus a⟩,
  ⟨0x0F00100, 0x1FF0100, fun a _ => .rdSerLegRxdata a⟩,
  ⟨0x0800000, 0x1E00000, fun a _ => .rdUnmapped8000 a⟩,
  ⟨0x0C00000, 0x1F00000, fun a _ => .rdUnmappedC000 a⟩,
  ⟨0x0D80000, 0x1FC0000, fun a _ => .rdUnmappedD800 a⟩,
  ⟨0x0DC0000, 0x1FE0000, fun a _ => .rdUnmappedDC00 a⟩,
  ⟨0x0DE0000, 0x1FF0000, fun a _ => .rdUnmappedDE00 a⟩,
  ⟨0x0E00000, 0x1F00000, fun a _ => .rdUnmappedE000 a⟩]

/-- The write rows of spec/opcode_table.json, in its order. -/
def writeRows : List OpcodeRow := [
  ⟨0x1000000, 0x1800000, fun a d => .wrRam a d⟩,
  ⟨0x1A00000, 0x1E00000, fun a d => .wrRomA a d⟩,
  ⟨0x1F10000, 0x1FF0000, fun a d => .wrRomMidF100 a d⟩,
  ⟨0x1F20000, 0x1FE0000, fun a d => .wrRomMidF200 a d⟩,
  ⟨0x1F40000, 0x1FC0000, fun a d => .wrRomMidF400 a d⟩,
  ⟨0x1F80000, 0x1FC0000, fun a d => .wrRomKlo a d⟩,
  ⟨0x1FD0000, 0x1FF0000, fun a d => .wrRomKhiFD00 a d⟩,
  ⟨0x1FE0000, 0x1FE0000, fun a d => .wrRomKhiFE00 a d⟩,
  ⟨0x1D00000, 0x1F80000, fun a d => .wrVid a d⟩,
  ⟨0x1DF0000, 0x1FF0000, fun a d => .wrKbd a d⟩,
  ⟨0x1E00000, 0x1FFFF00, fun a d => .wrUnused a d⟩,
  ⟨0x1FC0000, 0x1FF0100, fun a d => .wrSerNatControl a d⟩,
  ⟨0x1FC0100, 0x1FF0100, fun a d => .wrSerNatTxdata a d⟩,
  ⟨0x1F00000, 0x1FF0100, fun a d => .wrSerLegControl a d⟩,
  ⟨0x1F00100, 0x1FF0100, fun a d => .wrSerLegTxdata a d⟩,
  ⟨0x1800000, 0x1E00000, fun a d => .wrUnmapped8000 a d⟩,
  ⟨0x1C00000, 0x1F00000, fun a d => .wrUnmappedC000 a d⟩,
  ⟨0x1D80000, 0x1FC0000, fun a d => .wrUnmappedD800 a d⟩,
  ⟨0x1DC0000, 0x1FE0000, fun a d => .wrUnmappedDC00 a d⟩,
  ⟨0x1DE0000, 0x1FF0000, fun a d => .wrUnmappedDE00 a d⟩,
  ⟨0x1E00100, 0x1FFFF00, fun a d => .wrUnmappedE001 a d⟩,
  ⟨0x1E00200, 0x1FFFE00, fun a d => .wrUnmappedE002 a d⟩,
  ⟨0x1E00400, 0x1FFFC00, fun a d => .wrUnmappedE004 a d⟩,
  ⟨0x1E00800, 0x1FFF800, fun a d => .wrUnmappedE008 a d⟩,
  ⟨0x1E01000, 0x1FFF000, fun a d => .wrUnmappedE010 a d⟩,
  ⟨0x1E02000, 0x1FFE000, fun a d => .wrUnmappedE020 a d⟩,
  ⟨0x1E04000, 0x1FFC000, fun a d => .wrUnmappedE040 a d⟩,
  ⟨0x1E08000, 0x1FF8000, fun a d => .wrUnmappedE080 a d⟩,
  ⟨0x1E10000, 0x1FF0000, fun a d => .wrUnmappedE100 a d⟩,
  ⟨0x1E20000, 0x1FE0000, fun a d => .wrUnmappedE200 a d⟩,
  ⟨0x1E40000, 0x1FC0000, fun a d => .wrUnmappedE400 a d⟩,
  ⟨0x1E80000, 0x1F80000, fun a d => .wrUnmappedE800 a d⟩]

/-- The 52 rows (R64). -/
def opcodeTable : List OpcodeRow := readRows ++ writeRows

/-- Why a word is no transaction. -/
inductive DecodeError where
  /-- No row of the opcode table is selected; R66 says this never happens, and an obligation states it of the table. -/
  | noRow
  /-- The word has a bit above bit 24, so it is no 25-bit word (R60). -/
  | tooWide
deriving DecidableEq, Repr

/-- The instruction a transaction word stands for: the row the word selects, with the word's address and data (R64). -/
def decode (t : BusWord) : Except DecodeError Instr :=
  match opcodeTable.find? (fun r => r.selects t) with
  | some r => .ok (r.build (wordAddr t) (wordData t))
  | none => .error .noRow

/-- Decoding of any number: only a 25-bit one is a transaction word (R60). -/
def decodeNumber (n : Nat) : Except DecodeError Instr :=
  if n < 2 ^ 25 then decode (BitVec.ofNat 25 n) else .error .tooWide

/-- The decoder's answer for a word given as the `nbits` low bits of `w`, every higher bit 0. -/
def decodeTableWord (nbits w : Nat) : Option Instr :=
  match decodeNumber (w % 2 ^ nbits) with
  | .ok i => some i
  | .error _ => none

/-- The instruction is a write (`W = 1`). -/
def Instr.isWrite : Instr → Bool
  | .rdRam _ => false
  | .rdRomA _ => false
  | .rdRomMidF100 _ => false
  | .rdRomMidF200 _ => false
  | .rdRomMidF400 _ => false
  | .rdRomKlo _ => false
  | .rdRomKhiFD00 _ => false
  | .rdRomKhiFE00 _ => false
  | .rdVid _ => false
  | .rdKbd _ => false
  | .rdSerNatStatus _ => false
  | .rdSerNatRxdata _ => false
  | .rdSerLegStatus _ => false
  | .rdSerLegRxdata _ => false
  | .rdUnmapped8000 _ => false
  | .rdUnmappedC000 _ => false
  | .rdUnmappedD800 _ => false
  | .rdUnmappedDC00 _ => false
  | .rdUnmappedDE00 _ => false
  | .rdUnmappedE000 _ => false
  | .wrRam _ _ => true
  | .wrRomA _ _ => true
  | .wrRomMidF100 _ _ => true
  | .wrRomMidF200 _ _ => true
  | .wrRomMidF400 _ _ => true
  | .wrRomKlo _ _ => true
  | .wrRomKhiFD00 _ _ => true
  | .wrRomKhiFE00 _ _ => true
  | .wrVid _ _ => true
  | .wrKbd _ _ => true
  | .wrUnused _ _ => true
  | .wrSerNatControl _ _ => true
  | .wrSerNatTxdata _ _ => true
  | .wrSerLegControl _ _ => true
  | .wrSerLegTxdata _ _ => true
  | .wrUnmapped8000 _ _ => true
  | .wrUnmappedC000 _ _ => true
  | .wrUnmappedD800 _ _ => true
  | .wrUnmappedDC00 _ _ => true
  | .wrUnmappedDE00 _ _ => true
  | .wrUnmappedE001 _ _ => true
  | .wrUnmappedE002 _ _ => true
  | .wrUnmappedE004 _ _ => true
  | .wrUnmappedE008 _ _ => true
  | .wrUnmappedE010 _ _ => true
  | .wrUnmappedE020 _ _ => true
  | .wrUnmappedE040 _ _ => true
  | .wrUnmappedE080 _ _ => true
  | .wrUnmappedE100 _ _ => true
  | .wrUnmappedE200 _ _ => true
  | .wrUnmappedE400 _ _ => true
  | .wrUnmappedE800 _ _ => true

/-- The transaction word of an instruction, `{W, A, D}`; a read's canonical word has `D = 0` (R60). -/
def encode : Instr → BusWord
  | .rdRam a => packWord false a 0
  | .rdRomA a => packWord false a 0
  | .rdRomMidF100 a => packWord false a 0
  | .rdRomMidF200 a => packWord false a 0
  | .rdRomMidF400 a => packWord false a 0
  | .rdRomKlo a => packWord false a 0
  | .rdRomKhiFD00 a => packWord false a 0
  | .rdRomKhiFE00 a => packWord false a 0
  | .rdVid a => packWord false a 0
  | .rdKbd a => packWord false a 0
  | .rdSerNatStatus a => packWord false a 0
  | .rdSerNatRxdata a => packWord false a 0
  | .rdSerLegStatus a => packWord false a 0
  | .rdSerLegRxdata a => packWord false a 0
  | .rdUnmapped8000 a => packWord false a 0
  | .rdUnmappedC000 a => packWord false a 0
  | .rdUnmappedD800 a => packWord false a 0
  | .rdUnmappedDC00 a => packWord false a 0
  | .rdUnmappedDE00 a => packWord false a 0
  | .rdUnmappedE000 a => packWord false a 0
  | .wrRam a d => packWord true a d
  | .wrRomA a d => packWord true a d
  | .wrRomMidF100 a d => packWord true a d
  | .wrRomMidF200 a d => packWord true a d
  | .wrRomMidF400 a d => packWord true a d
  | .wrRomKlo a d => packWord true a d
  | .wrRomKhiFD00 a d => packWord true a d
  | .wrRomKhiFE00 a d => packWord true a d
  | .wrVid a d => packWord true a d
  | .wrKbd a d => packWord true a d
  | .wrUnused a d => packWord true a d
  | .wrSerNatControl a d => packWord true a d
  | .wrSerNatTxdata a d => packWord true a d
  | .wrSerLegControl a d => packWord true a d
  | .wrSerLegTxdata a d => packWord true a d
  | .wrUnmapped8000 a d => packWord true a d
  | .wrUnmappedC000 a d => packWord true a d
  | .wrUnmappedD800 a d => packWord true a d
  | .wrUnmappedDC00 a d => packWord true a d
  | .wrUnmappedDE00 a d => packWord true a d
  | .wrUnmappedE001 a d => packWord true a d
  | .wrUnmappedE002 a d => packWord true a d
  | .wrUnmappedE004 a d => packWord true a d
  | .wrUnmappedE008 a d => packWord true a d
  | .wrUnmappedE010 a d => packWord true a d
  | .wrUnmappedE020 a d => packWord true a d
  | .wrUnmappedE040 a d => packWord true a d
  | .wrUnmappedE080 a d => packWord true a d
  | .wrUnmappedE100 a d => packWord true a d
  | .wrUnmappedE200 a d => packWord true a d
  | .wrUnmappedE400 a d => packWord true a d
  | .wrUnmappedE800 a d => packWord true a d

/-- The pseudo-operations of the written notation (R70). -/
inductive PseudoOp where
  | scan (s : Byte)
  | getStat
  | getC
  | putC (v : Byte)
  | setCtl (v : Byte)
deriving DecidableEq, Repr

/-- `RD a` (R69). -/
def rdWord (a : Addr) : BusWord := packWord false a 0x00

/-- `WR a, v` (R69). -/
def wrWord (a : Addr) (v : Byte) : BusWord := packWord true a v

/-- The expansion of a pseudo-operation into transaction words (R70). -/
def PseudoOp.expand (kbdLo serNatLo : Nat) : PseudoOp → List BusWord
  | .scan s => [wrWord (BitVec.ofNat 16 kbdLo) s, rdWord (BitVec.ofNat 16 kbdLo)]
  | .getStat => [rdWord (BitVec.ofNat 16 serNatLo)]
  | .getC => [rdWord (BitVec.ofNat 16 (serNatLo + 1))]
  | .putC v => [wrWord (BitVec.ofNat 16 (serNatLo + 1)) v]
  | .setCtl v => [wrWord (BitVec.ofNat 16 serNatLo) v]

end Sys2Proof
end

