-- ==== Sys2Proof/Machine/Bus.lean ====
section
/-! DEFINITION. The bus as 40_bus.md R75 to R77 give it, over any configuration: an address is resolved once to its target and
the target's rule is performed. The opcode table is this dispatch written out for the standard map (30_encoding.md R64, R65). -/

namespace Sys2Proof.Machine

open Sys2Proof

/-- `MemRead(a, 1)` (00_scope.md R15, R75). -/
def memRead (c : Config) (a : Addr) (s : State) : State :=
  match readTarget c.map a with
  | .ram => ramRead c a s
  | .rom => romRead c a s
  | .serial w => serialRead c (serialSelect c.map w a) s
  | .video => videoRead c a s
  | .keyboard => kbdRead c s
  | .none => unmappedRead s

/-- `MemWrite(a, 1, d)` (00_scope.md R15, R75). -/
def memWrite (c : Config) (a : Addr) (d : Byte) (s : State) : State :=
  match writeTarget c.map a with
  | .ram => ramWrite c a d s
  | .romNop => romWrite s
  | .serial w => serialWrite (serialSelect c.map w a) d s
  | .video => videoWrite c a d s
  | .keyboard => kbdWrite c d s
  | .unusedNop => unusedWrite s
  | .none => unmappedWrite s

/-- What a transaction word does (30_encoding.md R60). -/
def transact (c : Config) (t : BusWord) (s : State) : State :=
  if wordWrite t then memWrite c (wordAddr t) (wordData t) s else memRead c (wordAddr t) s

end Sys2Proof.Machine
end

