-- ==== Sys2Proof/Machine/HostPort.lean ====
section
/-! DEFINITION. The host interactions (44_host.md R145 to R153) and power-on (70_reset_and_hazards.md R177), over any
configuration, and the block driven by the rules of 40_bus.md alone. -/

namespace Sys2Proof.Machine

open Sys2Proof

/-- ROM load: the overlapping prefix is copied, a length mismatch reported (R148). -/
def romLoad (c : Config) (img : List Byte) (s : State) : State :=
  { s with
    rom := Memory.load (c.unlisted .rom) s.rom (img.take c.romSize)
    romLenMismatch := decide (img.length ≠ c.romSize)
    romPort := .loaded }

/-- Power-on without an image yet: every element of the block at its power-on value, the ROM at its fill (R177). What belongs to
the environment stays (log 11). -/
def powerOn (c : Config) (s : State) : State :=
  { s with
    ram := []
    rom := []
    vid := []
    ser := Serial.powerOn
    kbd := Keyboard.powerOn c
    romLenMismatch := decide (0 ≠ c.romSize)
    result := none
    romPort := .opened }

/-- Console arrival: `E.inQ <- E.inQ ++ [b]` (R150). -/
def conArrive (b : Byte) (s : State) : State := { s with inQ := s.inQ ++ [b] }

/-- Console drain of the first `k` bytes, which the host receives in push order (R151). -/
def conDrain (k : Nat) (s : State) : State :=
  { s with outQ := s.outQ.drop k, hostOut := s.hostOut ++ s.outQ.take k }

/-- Reset request: the flag is set, nothing in the block changes (R152). -/
def requestReset (s : State) : State := { s with pendingAction := .resetRequest }

/-- The pacer's check of the flag: a pending reset request invokes the CPU collaborator's reset and is cleared; nothing in the
block changes (R152, R153). -/
def pacerCheck (s : State) : State :=
  match s.pendingAction with
  | .none => s
  | .resetRequest => { s with pendingAction := .none, cpuResets := s.cpuResets + 1 }

/-- One host interaction. Only a ROM load can be refused: after the first transaction (R149), or a second time (log 10). -/
def hostStep (c : Config) (h : HostEvent) (s : State) : Host.Outcome State Fault Refusal :=
  match h with
  | .powerOn => .next (powerOn c s)
  | .romLoad img =>
    match s.romPort with
    | .opened => .next (romLoad c img s)
    | .loaded => .refused .romLoadTwice
    | .closed => .refused .romLoadAfterStart
  | .conIn b => .next (conArrive b s)
  | .conOut k => .next (conDrain k s)
  | .resetRequest => .next (requestReset s)
  | .pacerCheck => .next (pacerCheck s)

/-- The block over any configuration: the next entry of the agenda is performed by the rules of 40_bus.md and 44_host.md, with
no opcode table; with nothing on the agenda nothing happens (R6, R146; log 5). -/
def busStep (c : Config) (s : State) : Host.Outcome State Fault Refusal :=
  match s.agenda with
  | [] => .next s
  | .bus t :: rest => .next (transact c t (s.beginTransaction rest))
  | .host h :: rest => hostStep c h (s.beginHost rest)

end Sys2Proof.Machine
end

