-- ==== Sys2Proof/Machine/Step.lean ====
section
/-! DEFINITION. One step of the machine: the next entry of the agenda is taken; a transaction word is decoded by the opcode
table and its instruction executed, a host interaction performed; with nothing on the agenda nothing happens (R6, R14, R146). -/

namespace Sys2Proof.Machine

open Sys2Proof

/-- One step. -/
def step (s : State) : Host.Outcome State Fault Refusal :=
  match s.agenda with
  | [] => .next s
  | .bus t :: rest =>
    match decode t with
    | .ok i => exec i (s.beginTransaction rest)
    | .error _ => .refused .noRow
  | .host h :: rest => hostStep Config.standard h (s.beginHost rest)

/-- `s` with the transaction word of the `nbits` low bits of `w` presented next: it is put at the head of the agenda, where
`step` takes its next transaction from (log 5). -/
def State.withFetchWord (s : State) (nbits w : Nat) : State :=
  { s with agenda := .bus (BitVec.ofNat 25 (w % 2 ^ nbits)) :: s.agenda }

end Sys2Proof.Machine
end

