-- ==== Sys2Proof/Machine/Table.lean ====
section
/-! DEFINITION. The opcode table of any configuration, regenerated from its `MAP` by the splitting that makes the standard table
(30_encoding.md R64, R65), and the block driven by that table. -/

namespace Sys2Proof.Machine

open Sys2Proof

/-! ## Splitting address ranges into blocks -/

/-- A block of `2 ^ bits` addresses from `start` on, aligned to its size. -/
structure Block where
  start : Nat
  bits : Nat
deriving DecidableEq, Repr

/-- The block as a window. -/
def Block.window (b : Block) : Window := ⟨b.start, b.start + 2 ^ b.bits - 1⟩

/-- The maximal aligned blocks of a set of addresses inside the block of `2 ^ bits` addresses from `start`, lowest first (R64): a
block wholly in the set is kept, a block wholly outside it dropped, any other split in two halves. The set is given by what it
`covers` and what it `avoids`. -/
def splitBlock (covers avoids : Window → Bool) : Nat → Nat → List Block
  | 0, start => if covers ⟨start, start⟩ then [⟨start, 0⟩] else []
  | bits + 1, start =>
    if covers ⟨start, start + 2 ^ (bits + 1) - 1⟩ then [⟨start, bits + 1⟩]
    else if avoids ⟨start, start + 2 ^ (bits + 1) - 1⟩ then []
    else splitBlock covers avoids bits start ++ splitBlock covers avoids bits (start + 2 ^ bits)

/-- `v` lies wholly in `w`. -/
def Window.within (v w : Window) : Bool := decide (w.lo ≤ v.lo) && decide (v.hi ≤ w.hi)

/-- No address lies in both. -/
def Window.apart (v w : Window) : Bool := decide (v.hi < w.lo) || decide (w.hi < v.lo)

/-- The blocks of a window (R64). -/
def windowBlocks (w : Window) : List Block := splitBlock (fun v => Window.within v w) (fun v => Window.apart v w) 16 0

/-- The blocks of the addresses no window of `ws` owns: the unmapped ranges, listed the same way (R64). -/
def unmappedBlocks (ws : List Window) : List Block :=
  splitBlock (fun v => ws.all (fun w => Window.apart v w)) (fun v => ws.any (fun w => Window.within v w)) 16 0

/-! ## Rows -/

/-- The rule an opcode-table row names (30_encoding.md R63). -/
inductive BusRule where
  | ramRead
  | ramWrite
  | romRead
  | romWrite
  | videoRead
  | videoWrite
  | unmappedRead
  | unmappedWrite
  | unusedWrite
  | statusRead
  | receiveRead
  | controlWrite
  | transmitWrite
  | keyboardRead
  | keyboardWrite
deriving DecidableEq, Repr

/-- The rule's meaning, on the fields of a transaction word (R63). -/
def BusRule.perform (c : Config) (r : BusRule) (a : Addr) (d : Byte) (s : State) : State :=
  match r with
  | .ramRead => Machine.ramRead c a s
  | .ramWrite => Machine.ramWrite c a d s
  | .romRead => Machine.romRead c a s
  | .romWrite => Machine.romWrite s
  | .videoRead => Machine.videoRead c a s
  | .videoWrite => Machine.videoWrite c a d s
  | .unmappedRead => Machine.unmappedRead s
  | .unmappedWrite => Machine.unmappedWrite s
  | .unusedWrite => Machine.unusedWrite s
  | .statusRead => serialStatusRead s
  | .receiveRead => serialRxRead c s
  | .controlWrite => serialControlWrite d s
  | .transmitWrite => serialTxWrite d s
  | .keyboardRead => kbdRead c s
  | .keyboardWrite => kbdWrite c d s

/-- A row of a regenerated table: it is selected by `T` exactly when `T & mask = match` (R64). -/
structure TableRow where
  mnemonic : String
  pattern : BusWord
  mask : BusWord
  rule : BusRule
deriving DecidableEq, Repr

/-- The row is selected by the word (R64). -/
def TableRow.selects (r : TableRow) (t : BusWord) : Bool := t &&& r.mask == r.pattern

/-- The four hexadecimal digits of an address. -/
def hexAddress (n : Nat) : String :=
  String.ofList ([12, 8, 4, 0].map fun k => Nat.digitChar (n / 2 ^ k % 16) |>.toUpper)

/-- A row's mnemonic: the direction, the name and, where the range is split, the block's start address (R64). -/
def rowMnemonic (write : Bool) (name : String) (suffixed : Bool) (b : Block) : String :=
  (if write then "WR_" else "RD_") ++ name ++ (if suffixed then "_" ++ hexAddress b.start else "")

/-- The row of a block: direction and the address bits above the block's are fixed (R64). -/
def blockRow (write : Bool) (name : String) (suffixed : Bool) (rule : BusRule) (b : Block) : TableRow where
  mnemonic := rowMnemonic write name suffixed b
  pattern := BitVec.ofNat 25 (write.toNat * 2 ^ 24 + b.start * 2 ^ 8)
  mask := BitVec.allOnes 25 <<< (b.bits + 8)
  rule := rule

/-- The rows of a window, one a block, suffixed where there are several (R64). -/
def windowRows (write : Bool) (name : String) (w : Window) (rule : BusRule) : List TableRow :=
  (windowBlocks w).map (blockRow write name (decide (1 < (windowBlocks w).length)) rule)

/-- A serial row adds `A[0]` to the mask of its block's row and fixes it at `bit` (R64). -/
def serialRow (write : Bool) (name : String) (suffixed : Bool) (rule : BusRule) (b : Block) (bit : Bool) : TableRow where
  mnemonic := rowMnemonic write name suffixed b
  pattern := (blockRow write name suffixed rule b).pattern ||| (if bit then 0x100 else 0)
  mask := (blockRow write name suffixed rule b).mask ||| 0x100
  rule := rule

/-- The values of `A[0]` in a block: both, but for a block of one address (log 31). -/
def Block.bitValues (b : Block) : List Bool := if b.bits = 0 then [b.start.testBit 0] else [false, true]

/-- Which register of a serial window the addresses with `A[0] = bit` reach: the one the select, bit 0 of the window offset,
names. So it is `A[0]` itself exactly where the window starts at an even address (40_bus.md R77; log 31). -/
def serialRegister (w : Window) (zero one : String × BusRule) (bit : Bool) : String × BusRule :=
  if bit == w.lo.testBit 0 then zero else one

/-- The rows of a serial window, one a register and block (R64). -/
def serialRows (write : Bool) (name : String) (w : Window) (zero one : String × BusRule) : List TableRow :=
  (windowBlocks w).flatMap fun b => b.bitValues.map fun bit =>
    serialRow write (name ++ (serialRegister w zero one bit).1) (decide (1 < (windowBlocks w).length))
      (serialRegister w zero one bit).2 b bit

/-- The rows of the unmapped ranges, every one suffixed (R64). -/
def unmappedRows (write : Bool) (ws : List Window) (rule : BusRule) : List TableRow :=
  (unmappedBlocks ws).map (blockRow write "UNMAPPED" true rule)

/-! ## The table -/

/-- The windows with a read entry: all but the unused register (40_bus.md R75). -/
def readWindows (m : AddressMap) : List Window :=
  [m.ramW, m.romA, m.romMid, m.romKlo, m.romKhi, m.vidW, m.kbdW, m.serNat, m.serLeg]

/-- The read rows of the table of `m`, in the order of spec/opcode_table.json (R65). -/
def regeneratedReads (m : AddressMap) : List TableRow :=
  windowRows false "RAM" m.ramW .ramRead ++
  windowRows false "ROM_A" m.romA .romRead ++
  windowRows false "ROM_MID" m.romMid .romRead ++
  windowRows false "ROM_KLO" m.romKlo .romRead ++
  windowRows false "ROM_KHI" m.romKhi .romRead ++
  windowRows false "VID" m.vidW .videoRead ++
  windowRows false "KBD" m.kbdW .keyboardRead ++
  serialRows false "SER_NAT" m.serNat ("_STATUS", .statusRead) ("_RXDATA", .receiveRead) ++
  serialRows false "SER_LEG" m.serLeg ("_STATUS", .statusRead) ("_RXDATA", .receiveRead) ++
  unmappedRows false (readWindows m) .unmappedRead

/-- The write rows of the table of `m`, in the order of spec/opcode_table.json (R65). -/
def regeneratedWrites (m : AddressMap) : List TableRow :=
  windowRows true "RAM" m.ramW .ramWrite ++
  windowRows true "ROM_A" m.romA .romWrite ++
  windowRows true "ROM_MID" m.romMid .romWrite ++
  windowRows true "ROM_KLO" m.romKlo .romWrite ++
  windowRows true "ROM_KHI" m.romKhi .romWrite ++
  windowRows true "VID" m.vidW .videoWrite ++
  windowRows true "KBD" m.kbdW .keyboardWrite ++
  windowRows true "UNUSED" m.unused .unusedWrite ++
  serialRows true "SER_NAT" m.serNat ("_CONTROL", .controlWrite) ("_TXDATA", .transmitWrite) ++
  serialRows true "SER_LEG" m.serLeg ("_CONTROL", .controlWrite) ("_TXDATA", .transmitWrite) ++
  unmappedRows true m.windows .unmappedWrite

/-- The opcode table of a configuration, regenerated from its `MAP` (R65). -/
def regeneratedTable (m : AddressMap) : List TableRow := regeneratedReads m ++ regeneratedWrites m

/-- The row a word selects in the table of `m` (R64). -/
def lookupRow (m : AddressMap) (t : BusWord) : Option TableRow := (regeneratedTable m).find? fun r => r.selects t

/-- One step of the block of any configuration, driven by its regenerated table: the counterpart of `step` (R65). -/
def tableStep (c : Config) (s : State) : Host.Outcome State Fault Refusal :=
  match s.agenda with
  | [] => .next s
  | .bus t :: rest =>
    match lookupRow c.map t with
    | some r => .next (r.rule.perform c (wordAddr t) (wordData t) (s.beginTransaction rest))
    | none => .refused .noRow
  | .host h :: rest => hostStep c h (s.beginHost rest)

end Sys2Proof.Machine
end

