-- ==== Sys2Proof/Safety.lean ====
section
/-! DEFINITION. What counts as a good state of the machine, in the terms the claims use. -/

namespace Sys2Proof.Machine

open Sys2Proof

/-- The three arrays are in canonical form and list no index past their size (10_state.md R23 to R25, 40_bus.md R87). -/
def MemoryOk (c : Config) (s : State) : Prop :=
  ∀ b, Memory.wf (c.unlisted b) (s.bank b) ∧ Memory.below (c.bankSize b) (s.bank b)

/-- The ranges of the keyboard counters between steps (R34, R35) and what the phase says about them: nothing is counted in phase
`Idle`, and a pending release has not yet reached the backup threshold (42_keyboard.md R128). -/
def KeyboardOk (c : Config) (k : Keyboard) : Prop :=
  k.rse ≤ c.backupReads ∧ k.det < c.detCount ∧ (k.phase = .idle → k.det = 0) ∧
    (k.phase = .pressedRecently → k.rse < c.backupReads)

/-- The invariant of the machine: arrays and counters in range, and the transmit-empty flag, set at power-on and cleared by no
rule (R30), is set. -/
def Inv (c : Config) (s : State) : Prop := MemoryOk c s ∧ KeyboardOk c s.kbd ∧ s.ser.tdreFlag = true

/-- The state with the registers no read returns put aside: Control (R27), Transmit Data (R28) and the hidden transmit-empty
flag (R30). -/
def State.hideWriteOnly (s : State) : State :=
  { s with ser := { s.ser with control := 0, txdata := 0, tdreFlag := true } }

/-- The block's own state (`S`) of `t` is that of `s` (44_host.md R145). -/
def SameBlock (s t : State) : Prop :=
  t.ram = s.ram ∧ t.rom = s.rom ∧ t.vid = s.vid ∧ t.ser = s.ser ∧ t.kbd = s.kbd ∧ t.romLenMismatch = s.romLenMismatch

/-- What the console leaves to press: the key position the head of the input queue maps to, if any (42_keyboard.md R121 to
R123). -/
def pendingKey (c : Config) (s : State) : Option KeyPos :=
  match s.inQ with
  | [] => none
  | b :: _ => c.keymap (normalizeKey c b)

/-- The keyboard after the poll of a keyboard-window access (R123): the pending key is pressed. -/
def pollKeyboard (c : Config) (s : State) : Keyboard :=
  match pendingKey c s with
  | none => s.kbd
  | some p => press p s.kbd

/-- No queued console byte maps to a key, so that no keyboard-window access presses one. -/
def NoKeyQueued (c : Config) (s : State) : Prop := ∀ b ∈ s.inQ, c.keymap (normalizeKey c b) = none

/-- What a row-select write of `sel` followed by a scan read does to the keyboard where no key is queued (R126, R131). -/
def scanUnder (c : Config) (k : Keyboard) (sel : Byte) : Keyboard :=
  autoRelease c (scanValue { k with rowsel := sel }) { k with rowsel := sel }

end Sys2Proof.Machine
end

