-- ==== Sys2Proof/Certificates/Slice0/Obligations.lean ====
section
/-! DEFINITION. The statements for the provers, from the numbered rules of spec/. -/

open Sys2Proof Sys2Proof.Machine

/-- Decoding the word of a well-formed instruction gives the instruction back, with every operand (30_encoding.md R60, R64). -/
def Obligations.DecodeOfEncodeIsIdentity : Prop :=
  ∀ i : Instr, i.wellFormed = true → decode (encode i) = .ok i

/-- No word is illegal: each decodes to a well-formed instruction of its direction whose word it is, but for the ignored data
field of a read (30_encoding.md R64, R66). -/
def Obligations.EveryWordIsAWellFormedTransaction : Prop :=
  ∀ t : BusWord, ∃ i, decode t = .ok i ∧ i.wellFormed = true ∧ i.isWrite = wordWrite t ∧
    encode i = if wordWrite t then t else t &&& 0x1FFFF00

/-- Every word selects exactly one row of the opcode table (30_encoding.md R64, R66). -/
def Obligations.EveryWordSelectsExactlyOneRow : Prop :=
  ∀ t : BusWord, (opcodeTable.filter fun r => r.selects t).length = 1

/-- Words written out in 95_test_vectors.md V2 decode to the rows listed there, one of each family. -/
def Obligations.VectorWordsDecodeAsListed : Prop :=
  decode 0x0000000 = .ok (.rdRam 0x0000) ∧ decode 0x00000FF = .ok (.rdRam 0x0000) ∧
  decode 0x17FFF22 = .ok (.wrRam 0x7FFF 0x22) ∧ decode 0x0F7FF00 = .ok (.rdRomMidF400 0xF7FF) ∧
  decode 0x1BFFF00 = .ok (.wrRomA 0xBFFF 0x00) ∧ decode 0x0D00000 = .ok (.rdVid 0xD000) ∧
  decode 0x1D7FF42 = .ok (.wrVid 0xD7FF 0x42) ∧ decode 0x0DEFF00 = .ok (.rdUnmappedDE00 0xDEFF) ∧
  decode 0x1E00155 = .ok (.wrUnmappedE001 0xE001 0x55) ∧ decode 0x1E00055 = .ok (.wrUnused 0xE000 0x55) ∧
  decode 0x0F00100 = .ok (.rdSerLegRxdata 0xF001) ∧ decode 0x1F0FE03 = .ok (.wrSerLegControl 0xF0FE 0x03) ∧
  decode 0x0DF0000 = .ok (.rdKbd 0xDF00) ∧ decode 0x1DFFFFD = .ok (.wrKbd 0xDFFF 0xFD)

/-- The instruction a word decodes to does what the dispatch of 40_bus.md R75 to R77 does with the word, in the standard
configuration (the default map is the spec's decision D1: log 1). -/
def Obligations.DecodedInstructionFollowsTheBusRules : Prop :=
  ∀ (t : BusWord) (i : Instr) (s : State), decode t = .ok i → exec i s = .next (transact Config.standard t s)

/-- The machine that decodes by the opcode table is the machine that dispatches by `ReadTarget` and `WriteTarget`, step for step,
in the standard configuration (30_encoding.md R64, 40_bus.md R75; the default map is the spec's decision D1: log 1). -/
def Obligations.TableMachineEqualsBusRuleMachine : Prop :=
  ∀ s : State, step s = busStep Config.standard s

/-- A step with a transaction next runs the instruction its word decodes to. Around it the step takes the word off the agenda and
closes the ROM load (44_host.md R149; log 5, log 10). -/
def Obligations.StepRunsTheDecodedInstruction : Prop :=
  ∀ (s : State) (t : BusWord) (rest : List Event) (i : Instr), s.agenda = .bus t :: rest → decode t = .ok i →
    step s = exec i { s with agenda := rest, romPort := .closed }

/-- With nothing on the agenda a step changes nothing (the model's choice: log 5). -/
def Obligations.NothingHappensBetweenTransactions : Prop :=
  ∀ s : State, s.agenda = [] → step s = .next s

/-- A word placed by `withFetchWord` is the next transaction performed (the model's interface: log 5). -/
def Obligations.PlacedWordRunsNext : Prop :=
  ∀ (s : State) (i : Instr) (n : Nat), i.wellFormed = true → 25 ≤ n →
    step (s.withFetchWord n (encode i).toNat) = exec i { s with romPort := .closed }

/-- R78: a RAM read returns `S.ram[A & RAM_MASK]` and changes nothing else, in any well-formed configuration; with the default
sizes the index is the address; right after reset every byte reads 0x00, and so does, in every state and configuration, a byte whose
index the array does not list. -/
def Obligations.RamReadReturnsTheByte : Prop :=
  (∀ (a : Addr) (s : State),
    exec (.rdRam a) s = .next { s with result := some (s.peek Config.standard .ram (a.toNat % Config.standard.ramSize)) }) ∧
  (∀ (c : Config) (a : Addr) (s : State), c.WellFormed → c.map.ramW.Contains a →
    memRead c a s = { s with result := some (s.peek c .ram (a.toNat % c.ramSize)) }) ∧
  (∀ a : Addr, (Instr.rdRam a).wellFormed = true → a.toNat % Config.standard.ramSize = a.toNat) ∧
  (∀ i : Nat, State.reset.peek Config.standard .ram i = 0x00) ∧
  (∀ (c : Config) (s : State) (i : Nat), (∀ x ∈ s.ram, x.1 ≠ i) → s.peek c .ram i = 0x00)

/-- R79: a RAM write stores its byte at `A & RAM_MASK` and changes nothing else of the machine's memory or registers, in the row
and in any well-formed configuration; writing the value already held changes nothing. -/
def Obligations.RamWriteStoresTheByte : Prop :=
  (∀ (a : Addr) (d : Byte) (s : State), Memory.wf (Config.standard.unlisted .ram) s.ram →
    ∃ t, exec (.wrRam a d) s = .next t ∧ t = { s with ram := t.ram, result := none } ∧
      (∀ (b : Bank) (i : Nat), t.peek Config.standard b i =
        if b = .ram ∧ i = a.toNat % Config.standard.ramSize then d else s.peek Config.standard b i) ∧
      (s.peek Config.standard .ram (a.toNat % Config.standard.ramSize) = d → t.ram = s.ram)) ∧
  (∀ (c : Config) (a : Addr) (d : Byte) (s : State), c.WellFormed → c.map.ramW.Contains a → Memory.wf (c.unlisted .ram) s.ram →
    memWrite c a d s = { s with ram := (memWrite c a d s).ram, result := none } ∧
    ∀ (b : Bank) (i : Nat), (memWrite c a d s).peek c b i =
      if b = .ram ∧ i = a.toNat % c.ramSize then d else s.peek c b i)

/-- A ROM read returns `S.rom[A & ROM_MASK]`, one array for all four windows, and changes nothing else, in any well-formed
configuration; with the default sizes the seven rows return byte `A - 0x8000` (40_bus.md, ROM read; the shared array and its size
are the spec's decision D3, the windows D1: log 1). -/
def Obligations.RomReadReturnsTheImageByte : Prop :=
  (∀ (c : Config) (a : Addr) (s : State), c.WellFormed →
    c.map.romA.Contains a ∨ c.map.romMid.Contains a ∨ c.map.romKlo.Contains a ∨ c.map.romKhi.Contains a →
    memRead c a s = { s with result := some (s.peek c .rom (a.toNat % c.romSize)) }) ∧
  ∀ (a : Addr) (s : State),
    ((Instr.rdRomA a).wellFormed = true →
      exec (.rdRomA a) s = .next { s with result := some (s.peek Config.standard .rom (a.toNat - 0x8000)) }) ∧
    ((Instr.rdRomMidF100 a).wellFormed = true →
      exec (.rdRomMidF100 a) s = .next { s with result := some (s.peek Config.standard .rom (a.toNat - 0x8000)) }) ∧
    ((Instr.rdRomMidF200 a).wellFormed = true →
      exec (.rdRomMidF200 a) s = .next { s with result := some (s.peek Config.standard .rom (a.toNat - 0x8000)) }) ∧
    ((Instr.rdRomMidF400 a).wellFormed = true →
      exec (.rdRomMidF400 a) s = .next { s with result := some (s.peek Config.standard .rom (a.toNat - 0x8000)) }) ∧
    ((Instr.rdRomKlo a).wellFormed = true →
      exec (.rdRomKlo a) s = .next { s with result := some (s.peek Config.standard .rom (a.toNat - 0x8000)) }) ∧
    ((Instr.rdRomKhiFD00 a).wellFormed = true →
      exec (.rdRomKhiFD00 a) s = .next { s with result := some (s.peek Config.standard .rom (a.toNat - 0x8000)) }) ∧
    ((Instr.rdRomKhiFE00 a).wellFormed = true →
      exec (.rdRomKhiFE00 a) s = .next { s with result := some (s.peek Config.standard .rom (a.toNat - 0x8000)) })

/-- R81: a ROM write completes and changes nothing of the block, in the seven rows and at every address of a ROM window of any
configuration; so no write to any ROM address changes a later read of it. -/
def Obligations.RomWriteChangesNothing : Prop :=
  (∀ (a : Addr) (d : Byte) (s : State),
    exec (.wrRomA a d) s = .next { s with result := none } ∧ exec (.wrRomMidF100 a d) s = .next { s with result := none } ∧
    exec (.wrRomMidF200 a d) s = .next { s with result := none } ∧ exec (.wrRomMidF400 a d) s = .next { s with result := none } ∧
    exec (.wrRomKlo a d) s = .next { s with result := none } ∧ exec (.wrRomKhiFD00 a d) s = .next { s with result := none } ∧
    exec (.wrRomKhiFE00 a d) s = .next { s with result := none }) ∧
  (∀ (c : Config) (a : Addr) (d : Byte) (s : State), c.WellFormed →
    c.map.romA.Contains a ∨ c.map.romMid.Contains a ∨ c.map.romKlo.Contains a ∨ c.map.romKhi.Contains a →
    memWrite c a d s = { s with result := none } ∧
    (memRead c a (memWrite c a d s)).result = (memRead c a s).result)

/-- A video read returns `S.vid[A - VID_BASE]` and changes nothing else, in the row and in any well-formed configuration; right
after reset every byte of the buffer reads 0x00 (40_bus.md, video read). That the index lies inside the buffer is an inference the
spec marks as its own there. -/
def Obligations.VideoReadReturnsTheByte : Prop :=
  (∀ (a : Addr) (s : State),
    exec (.rdVid a) s = .next { s with result := some (s.peek Config.standard .vid (a.toNat - Config.standard.vidBase)) } ∧
    ((Instr.rdVid a).wellFormed = true → Config.standard.vidBase ≤ a.toNat ∧
      a.toNat - Config.standard.vidBase < Config.standard.vidSize)) ∧
  (∀ (c : Config) (a : Addr) (s : State), c.WellFormed → c.map.vidW.Contains a →
    memRead c a s = { s with result := some (s.peek c .vid (a.toNat - c.vidBase)) } ∧
    c.vidBase ≤ a.toNat ∧ a.toNat - c.vidBase < c.vidSize) ∧
  (∀ i : Nat, State.reset.peek Config.standard .vid i = 0x00)

/-- R83: a video write stores its byte at `A - VID_BASE` and changes nothing else, in the row and in any well-formed configuration,
the first and last byte of the buffer like every other; the address past the window is outside it, with the default map unmapped. -/
def Obligations.VideoWriteStoresTheByte : Prop :=
  (∀ (a : Addr) (d : Byte) (s : State), Memory.wf (Config.standard.unlisted .vid) s.vid →
    ∃ t, exec (.wrVid a d) s = .next t ∧ t = { s with vid := t.vid, result := none } ∧
      (∀ (b : Bank) (i : Nat), t.peek Config.standard b i =
        if b = .vid ∧ i = a.toNat - Config.standard.vidBase then d else s.peek Config.standard b i)) ∧
  (∀ (c : Config) (a : Addr) (d : Byte) (s : State), c.WellFormed → c.map.vidW.Contains a → Memory.wf (c.unlisted .vid) s.vid →
    memWrite c a d s = { s with vid := (memWrite c a d s).vid, result := none } ∧
    ∀ (b : Bank) (i : Nat), (memWrite c a d s).peek c b i = if b = .vid ∧ i = a.toNat - c.vidBase then d else s.peek c b i) ∧
  (∀ d : Byte, (Instr.wrVid (BitVec.ofNat 16 Config.standard.vidBase) d).wellFormed = true ∧
    (Instr.wrVid (BitVec.ofNat 16 (Config.standard.vidBase + Config.standard.vidSize - 1)) d).wellFormed = true ∧
    writeTarget Config.standard.map (BitVec.ofNat 16 (Config.standard.vidBase + Config.standard.vidSize)) = .none)

/-- A read of an address with no read target returns 0xFF and changes nothing (40_bus.md, Unmapped read). That the unused register
is such an address is the spec's decision D24 (log 21). -/
def Obligations.UnmappedReadReturnsTheSentinel : Prop :=
  (∀ (a : Addr) (s : State),
    exec (.rdUnmapped8000 a) s = .next { s with result := some 0xFF } ∧
    exec (.rdUnmappedC000 a) s = .next { s with result := some 0xFF } ∧
    exec (.rdUnmappedD800 a) s = .next { s with result := some 0xFF } ∧
    exec (.rdUnmappedDC00 a) s = .next { s with result := some 0xFF } ∧
    exec (.rdUnmappedDE00 a) s = .next { s with result := some 0xFF } ∧
    exec (.rdUnmappedE000 a) s = .next { s with result := some 0xFF }) ∧
  (∀ (c : Config) (a : Addr) (s : State), readTarget c.map a = .none → memRead c a s = { s with result := some 0xFF }) ∧
  (∀ (c : Config) (a : Addr), c.WellFormed → c.map.unused.Contains a → readTarget c.map a = .none)

/-- R85: a write of an address with no write target is discarded; a later read of it still returns 0xFF. -/
def Obligations.UnmappedWriteIsDiscarded : Prop :=
  (∀ (a : Addr) (d : Byte) (s : State),
    exec (.wrUnmapped8000 a d) s = .next { s with result := none } ∧ exec (.wrUnmappedC000 a d) s = .next { s with result := none } ∧
    exec (.wrUnmappedD800 a d) s = .next { s with result := none } ∧ exec (.wrUnmappedDC00 a d) s = .next { s with result := none } ∧
    exec (.wrUnmappedDE00 a d) s = .next { s with result := none } ∧ exec (.wrUnmappedE001 a d) s = .next { s with result := none } ∧
    exec (.wrUnmappedE002 a d) s = .next { s with result := none } ∧ exec (.wrUnmappedE004 a d) s = .next { s with result := none } ∧
    exec (.wrUnmappedE008 a d) s = .next { s with result := none } ∧ exec (.wrUnmappedE010 a d) s = .next { s with result := none } ∧
    exec (.wrUnmappedE020 a d) s = .next { s with result := none } ∧ exec (.wrUnmappedE040 a d) s = .next { s with result := none } ∧
    exec (.wrUnmappedE080 a d) s = .next { s with result := none } ∧ exec (.wrUnmappedE100 a d) s = .next { s with result := none } ∧
    exec (.wrUnmappedE200 a d) s = .next { s with result := none } ∧ exec (.wrUnmappedE400 a d) s = .next { s with result := none } ∧
    exec (.wrUnmappedE800 a d) s = .next { s with result := none }) ∧
  (∀ (c : Config) (a : Addr) (d : Byte) (s : State), writeTarget c.map a = .none →
    memWrite c a d s = { s with result := none } ∧ (memRead c a (memWrite c a d s)).result = some 0xFF)

/-- A write of the unused register does nothing, so no console byte is polled (40_bus.md, Unused-register write). That no later
transaction tells it from an unmapped write is an inference the spec marks as its own there. -/
def Obligations.UnusedRegisterWriteDoesNothing : Prop :=
  (∀ (a : Addr) (d : Byte) (s : State),
    exec (.wrUnused a d) s = .next { s with result := none } ∧ exec (.wrUnused a d) s = exec (.wrUnmappedE001 a d) s) ∧
  (∀ (c : Config) (a : Addr) (d : Byte) (s : State), c.WellFormed → c.map.unused.Contains a →
    memWrite c a d s = { s with result := none })

/-- A Status read shows bit 0 exactly when a console byte waits, bit 1 always and no other bit, through either window, and
consumes nothing (41_serial.md, Status read; TDRE and bits 7:2 are the spec's decisions D7, D8: log 15). -/
def Obligations.StatusReadShowsReadiness : Prop :=
  ∀ (a : Addr) (s : State),
    exec (.rdSerNatStatus a) s = .next { s with result := some (if s.inQ = [] then 0x02 else 0x03) } ∧
    exec (.rdSerLegStatus a) s = .next { s with result := some (if s.inQ = [] then 0x02 else 0x03) }

/-- A Receive Data read pulls exactly one waiting byte into the latch and returns it; with none waiting it returns the latch and
changes nothing (41_serial.md, Receive Data read; the empty read is the spec's decision D9: log 3). -/
def Obligations.ReceiveReadPullsOneByte : Prop :=
  ∀ (a : Addr) (s : State),
    (∀ (b : Byte) (q : List Byte), s.inQ = b :: q →
      exec (.rdSerNatRxdata a) s = .next { s with inQ := q, ser := { s.ser with rxlatch := b }, result := some b } ∧
      exec (.rdSerLegRxdata a) s = .next { s with inQ := q, ser := { s.ser with rxlatch := b }, result := some b }) ∧
    (s.inQ = [] →
      exec (.rdSerNatRxdata a) s = .next { s with result := some s.ser.rxlatch } ∧
      exec (.rdSerLegRxdata a) s = .next { s with result := some s.ser.rxlatch })

/-- Where the configuration says `Any`, a Receive Data read with no byte waiting returns some byte and changes no state of the
block or its environment but the model's count of draws (41_serial.md, Receive Data read; D9; log 3, log 4). -/
def Obligations.EmptyReceiveReadUnderAny : Prop :=
  ∀ (c : Config) (a : Addr) (w : SerialWindow) (s : State), c.rxEmptyRead = .any → readTarget c.map a = .serial w →
    serialSelect c.map w a = true → s.inQ = [] →
    ∃ v, memRead c a s = { s with draws := s.draws + 1, result := some v }

/-- R105: a Control write stores its byte, whatever its value, and does nothing else, through either window and in any configuration;
no read returns the byte stored. -/
def Obligations.ControlWriteOnlyStores : Prop :=
  ∀ (a : Addr) (d : Byte) (s : State),
    exec (.wrSerNatControl a d) s = .next { s with ser := { s.ser with control := d }, result := none } ∧
    exec (.wrSerLegControl a d) s = .next { s with ser := { s.ser with control := d }, result := none } ∧
    (∀ (c : Config) (w : SerialWindow), writeTarget c.map a = .serial w → serialSelect c.map w a = false →
      memWrite c a d s = { s with ser := { s.ser with control := d }, result := none }) ∧
    (∀ (i : Instr) (t : State), exec i s = .next t →
      ∃ u, exec i { s with ser := { s.ser with control := d } } = .next u ∧ u.result = t.result)

/-- A Transmit Data write keeps its byte, forwards it unchanged to the console and sets the transmit-empty flag, through either
window; two writes in a row push two bytes in order (41_serial.md, Transmit Data write). -/
def Obligations.TransmitWriteForwardsTheByte : Prop :=
  ∀ (a : Addr) (d e : Byte) (s : State),
    exec (.wrSerNatTxdata a d) s =
      .next { s with ser := { s.ser with txdata := d, tdreFlag := true }, outQ := s.outQ ++ [d], result := none } ∧
    exec (.wrSerLegTxdata a d) s =
      .next { s with ser := { s.ser with txdata := d, tdreFlag := true }, outQ := s.outQ ++ [d], result := none } ∧
    (∀ t u, exec (.wrSerNatTxdata a d) s = .next t → exec (.wrSerLegTxdata a e) t = .next u → u.outQ = s.outQ ++ [d, e])

/-- A keyboard scan read polls the console, then returns the scan value of the keyboard so polled, then runs the release policy
on that value; nothing else changes (42_keyboard.md, Keyboard scan read; its policy rests on D15, D30: log 18). -/
def Obligations.KeyboardScanRead : Prop :=
  ∀ (a : Addr) (s : State), ∃ k,
    (pendingKey Config.standard s = none → k = s.kbd) ∧ (∀ p, pendingKey Config.standard s = some p → k = press p s.kbd) ∧
    exec (.rdKbd a) s = .next { s with
      inQ := s.inQ.tail, kbd := autoRelease Config.standard (scanValue k) k, result := some (scanValue k) }

/-- A keyboard row-select write polls the console, then stores its byte in the row select; it makes no forced release, counts no
read and no detection, and changes nothing else (42_keyboard.md, Keyboard row-select write). -/
def Obligations.KeyboardRowSelectWrite : Prop :=
  ∀ (a : Addr) (d : Byte) (s : State), ∃ k,
    (pendingKey Config.standard s = none → k = s.kbd) ∧ (∀ p, pendingKey Config.standard s = some p → k = press p s.kbd) ∧
    exec (.wrKbd a d) s = .next { s with inQ := s.inQ.tail, kbd := { k with rowsel := d }, result := none } ∧
    k.det = s.kbd.det ∧ (k.rse = s.kbd.rse ∨ k.rse = 0)

/-- A bit of the scan value is 1 exactly when it is 1 in every selected row: a key shows exactly when it is pressed and its row
selected, and no selected row gives 0xFF (42_keyboard.md, Matrix layout and Scanning; the empty selection is D17: log 19). -/
def Obligations.ScanShowsPressedKeysOfSelectedRows : Prop :=
  ∀ (k : Keyboard) (c : Fin 8),
    (scanValue k).getLsbD c.val = true ↔ ∀ r : Fin 8, k.rowsel.getLsbD r.val = false → (k.rows[r]).getLsbD c.val = true

/-- The key code of a console byte, case by case (42_keyboard.md, Decoding console bytes; the ASCII values are general knowledge,
RET_CODE and BS_CODE the spec's decision D14: log 22). -/
def Obligations.NormalizeByCases : Prop :=
  ∀ (c : Config) (b : Byte),
    (0x61 ≤ b.toNat ∧ b.toNat ≤ 0x7A → (normalizeKey c b).toNat = b.toNat - 0x20) ∧
    (b.toNat = 0x0A ∨ b.toNat = 0x0D → normalizeKey c b = c.retCode) ∧
    (b.toNat = 0x7F ∨ b.toNat = 0x08 → normalizeKey c b = c.bsCode) ∧
    (¬ (0x61 ≤ b.toNat ∧ b.toNat ≤ 0x7A) → b.toNat ≠ 0x0A → b.toNat ≠ 0x0D → b.toNat ≠ 0x7F → b.toNat ≠ 0x08 → normalizeKey c b = b)

/-- A press clears the bit of its key and no other, restarts the read counter, arms the release policy, and leaves the detection
count and the row select (42_keyboard.md, Press; the phase is the spec's decision D15: log 18). -/
def Obligations.PressClearsOneKey : Prop :=
  ∀ (p : KeyPos) (k : Keyboard),
    (∀ r c : Fin 8, ((press p k).rows[r]).getLsbD c.val = ((k.rows[r]).getLsbD c.val && !(r == p.row && c == p.col))) ∧
    (press p k).rse = 0 ∧ (press p k).phase = .pressedRecently ∧ (press p k).det = k.det ∧ (press p k).rowsel = k.rowsel

/-- The two release paths of a scan read after a press with no key queued, at the default thresholds: the third detection within
the first 10 reads and the 100th read release every key after the value is taken; otherwise only the counters move
(42_keyboard.md, Auto-release; the counting is the spec's decision D15, D30: log 18). -/
def Obligations.FastAndBackupRelease : Prop :=
  ∀ (a : Addr) (s : State), s.kbd.phase = .pressedRecently → pendingKey Config.standard s = none →
    ∃ t, exec (.rdKbd a) s = .next t ∧ t.result = some (scanValue s.kbd) ∧
      ((scanValue s.kbd ≠ 0xFF ∧ s.kbd.rse + 1 ≤ 10 ∧ 3 ≤ s.kbd.det + 1) ∨ 100 ≤ s.kbd.rse + 1 →
        t.kbd = { s.kbd with rows := Vector.replicate 8 0xFF, rse := min (s.kbd.rse + 1) 100, det := 0, phase := .idle }) ∧
      (scanValue s.kbd ≠ 0xFF → s.kbd.rse + 1 ≤ 10 → s.kbd.det + 1 < 3 →
        t.kbd = { s.kbd with rse := s.kbd.rse + 1, det := s.kbd.det + 1 }) ∧
      (scanValue s.kbd = 0xFF ∨ 10 < s.kbd.rse + 1 → s.kbd.rse + 1 < 100 → s.kbd.det < 3 →
        t.kbd = { s.kbd with rse := s.kbd.rse + 1 })

/-- After a press made in phase `Idle`, with the key's row selected and no other key queued, exactly `DET_COUNT` scans see the key,
every key is released after them and the next scan sees it so, in every well-formed configuration with `DET_COUNT <= DET_WINDOW` (42_keyboard.md,
Auto-release, consequence (a); it rests on D15, D16, D30: log 18). -/
def Obligations.KeyIsSeenDetCountTimesThenReleased : Prop :=
  ∀ (c : Config) (s : State) (p : KeyPos), c.WellFormed → c.detCount ≤ c.detWindow → s.kbd.phase = .idle → s.kbd.det = 0 →
    NoKeyQueued c s → s.kbd.rowsel.getLsbD p.row.val = false →
    (∀ n, n < c.detCount → ∃ v, ((kbdRead c)^[n + 1] { s with kbd := press p s.kbd }).result = some v ∧
      v.getLsbD p.col.val = false) ∧
    ((kbdRead c)^[c.detCount + 1] { s with kbd := press p s.kbd }).result = some 0xFF ∧
    ((kbdRead c)^[c.detCount] { s with kbd := press p s.kbd }).kbd.phase = .idle ∧
    ((kbdRead c)^[c.detCount] { s with kbd := press p s.kbd }).kbd.rows = Vector.replicate 8 0xFF

/-- After a press at most `BACKUP_READS` scans happen before every key is released, whatever rows are selected before each scan,
as long as no key is pressed (42_keyboard.md, Auto-release, consequence (b); it rests on D15, D16, D30: log 18). -/
def Obligations.BackupReleaseWithinBackupReads : Prop :=
  ∀ (c : Config) (k : Keyboard) (sels : List Byte), c.WellFormed → KeyboardOk c k → k.phase = .pressedRecently →
    c.backupReads - k.rse ≤ sels.length →
    ∃ n, n ≤ c.backupReads - k.rse ∧ ((sels.take n).foldl (scanUnder c) k).phase = .idle ∧
      ((sels.take n).foldl (scanUnder c) k).rows = Vector.replicate 8 0xFF

/-- In phase `Idle`, which holds from power-on until the first press, no number of scans releases a key: the start-up lock stays
held (42_keyboard.md, Auto-release, last rule; decisions D15, D16: log 18). -/
def Obligations.NothingIsReleasedWhileIdle : Prop :=
  ∀ (c : Config) (s : State), s.kbd.phase = .idle → NoKeyQueued c s →
    ∀ n, ((kbdRead c)^[n] s).kbd.rows = s.kbd.rows ∧ ((kbdRead c)^[n] s).kbd.phase = .idle ∧
      ((kbdRead c)^[n] s).kbd.det = s.kbd.det

/-- R160: whatever the transaction word, the step that performs it completes, with no exception, fault or refusal, and with a
defined result: a byte for a read, none for a write. -/
def Obligations.EveryTransactionCompletes : Prop :=
  ∀ (s : State) (t : BusWord) (rest : List Event), s.agenda = .bus t :: rest →
    ∃ u, step s = .next u ∧ u.result.isSome = !wordWrite t

/-- No bus transaction changes the ROM or the length-mismatch bit (20_memory.md, Protection; 10_state.md, Memory arrays). -/
def Obligations.NoTransactionChangesRom : Prop :=
  ∀ (i : Instr) (s t : State), exec i s = .next t → t.rom = s.rom ∧ t.romLenMismatch = s.romLenMismatch

/-- The keyboard state changes only in the two keyboard-window transactions (42_keyboard.md, Row select, last rule). -/
def Obligations.KeyboardChangesOnlyByKeyboardAccess : Prop :=
  ∀ (i : Instr) (s t : State), exec i s = .next t → (∀ a, i ≠ .rdKbd a) → (∀ a d, i ≠ .wrKbd a d) → t.kbd = s.kbd

/-- A transaction consumes at most the head of the input queue, and only a Receive Data read or a keyboard-window access consumes
it (20_memory.md, side effects per window; decision D18: log 20). -/
def Obligations.ConsoleBytesAreConsumedOneAtATime : Prop :=
  ∀ (i : Instr) (s t : State), exec i s = .next t →
    ((t.inQ = s.inQ ∨ t.inQ = s.inQ.tail) ∧
     ((∀ a, i ≠ .rdKbd a ∧ i ≠ .rdSerNatRxdata a ∧ i ≠ .rdSerLegRxdata a) → (∀ a d, i ≠ .wrKbd a d) → t.inQ = s.inQ) ∧
     ((∃ a, i = .rdKbd a ∨ i = .rdSerNatRxdata a ∨ i = .rdSerLegRxdata a) ∨ (∃ a d, i = .wrKbd a d) → t.inQ = s.inQ.tail))

/-- The two halves of the serial adapter do not touch each other: the latch changes only in a Receive Data read; Transmit Data,
the transmit-empty flag and the output queue only in a Transmit Data write; Control only in a Control write (41_serial.md, The
two halves). -/
def Obligations.SerialHalvesAreIndependent : Prop :=
  ∀ (i : Instr) (s t : State), exec i s = .next t →
    ((∀ a, i ≠ .rdSerNatRxdata a ∧ i ≠ .rdSerLegRxdata a) → t.ser.rxlatch = s.ser.rxlatch) ∧
    ((∀ a d, i ≠ .wrSerNatTxdata a d ∧ i ≠ .wrSerLegTxdata a d) →
      t.ser.txdata = s.ser.txdata ∧ t.ser.tdreFlag = s.ser.tdreFlag ∧ t.outQ = s.outQ) ∧
    ((∀ a d, i ≠ .wrSerNatControl a d ∧ i ≠ .wrSerLegControl a d) → t.ser.control = s.ser.control)

/-- Every byte of RAM, ROM and video is unchanged by every instruction, but for the byte a RAM write or a video write stores to
(20_memory.md, side effects per window). -/
def Obligations.OnlyStoredBytesChange : Prop :=
  ∀ (i : Instr) (s t : State), exec i s = .next t → ∀ (b : Bank) (n : Nat),
    (∀ a d, i = .wrRam a d → ¬ (b = .ram ∧ n = a.toNat % Config.standard.ramSize)) →
    (∀ a d, i = .wrVid a d → ¬ (b = .vid ∧ n = a.toNat - Config.standard.vidBase)) →
    t.peek Config.standard b n = s.peek Config.standard b n

/-- No instruction touches what belongs to the host: the agenda, the ROM port, the drained bytes, the pending action, the count of
CPU resets, and (with the latch policy) the count of draws (44_host.md, The host table; log 5, log 13, log 14). -/
def Obligations.TransactionsLeaveTheHostAlone : Prop :=
  ∀ (i : Instr) (s t : State), exec i s = .next t →
    t.agenda = s.agenda ∧ t.romPort = s.romPort ∧ t.hostOut = s.hostOut ∧ t.pendingAction = s.pendingAction ∧
    t.cpuResets = s.cpuResets ∧ t.draws = s.draws

/-- The state right after reset meets the invariant (70_reset_and_hazards.md, Power-on). -/
def Obligations.ResetMeetsTheInvariant : Prop := Inv Config.standard State.reset

/-- Every step keeps the invariant: arrays in canonical form and within their sizes, keyboard counters in their ranges, the
transmit-empty flag set (10_state.md, Keyboard matrix controller registers; counters D30: log 24). -/
def Obligations.StepKeepsTheInvariant : Prop :=
  ∀ s t : State, Inv Config.standard s → step s = .next t → Inv Config.standard t

/-- In every well-formed configuration every transaction and host interaction keeps the invariant (40_bus.md, Properties of the
decoder; 10_state.md). -/
def Obligations.BusRulesKeepTheInvariantInEveryConfiguration : Prop :=
  ∀ (c : Config) (s t : State), c.WellFormed → Inv c s → busStep c s = .next t → Inv c t

/-- The standard configuration is well formed (00_scope.md, Implementation parameters; its values are the spec's decisions:
log 1). -/
def Obligations.StandardConfigurationIsWellFormed : Prop := Config.standard.WellFormed

/-- No operation computes an index out of range, in any well-formed configuration (40_bus.md, Properties of the decoder). -/
def Obligations.IndexesStayInRange : Prop :=
  ∀ (c : Config) (a : Addr), c.WellFormed →
    ramIndex c a < c.ramSize ∧ romIndex c a < c.romSize ∧
    (c.map.vidW.Contains a → c.vidBase ≤ a.toNat ∧ vidIndex c a < c.vidSize) ∧
    (∀ w, readTarget c.map a = .serial w → serialOffset c.map w a < c.map.serNat.size ∧
      c.map.serNat.lo ≤ nativeAddress c.map w a ∧ nativeAddress c.map w a ≤ c.map.serNat.hi)

/-- In a well-formed configuration the order of the tests decides nothing: each window's addresses reach its own target, and an
address of no window reaches none (40_bus.md, The decoder; 20_memory.md, Address map). -/
def Obligations.EveryWindowReachesItsTarget : Prop :=
  ∀ (c : Config) (a : Addr), c.WellFormed →
    (c.map.ramW.Contains a → readTarget c.map a = .ram ∧ writeTarget c.map a = .ram) ∧
    (c.map.romA.Contains a ∨ c.map.romMid.Contains a ∨ c.map.romKlo.Contains a ∨ c.map.romKhi.Contains a →
      readTarget c.map a = .rom ∧ writeTarget c.map a = .romNop) ∧
    (c.map.serLeg.Contains a → readTarget c.map a = .serial .legacy ∧ writeTarget c.map a = .serial .legacy) ∧
    (c.map.serNat.Contains a → readTarget c.map a = .serial .native ∧ writeTarget c.map a = .serial .native) ∧
    (c.map.vidW.Contains a → readTarget c.map a = .video ∧ writeTarget c.map a = .video) ∧
    (c.map.kbdW.Contains a → readTarget c.map a = .keyboard ∧ writeTarget c.map a = .keyboard) ∧
    (c.map.unused.Contains a → readTarget c.map a = .none ∧ writeTarget c.map a = .unusedNop) ∧
    ((∀ w ∈ c.map.windows, ¬ w.Contains a) → readTarget c.map a = .none ∧ writeTarget c.map a = .none)

/-- A sequence of serial transactions through the legacy alias leaves exactly the state (and the results) that the same sequence
at the native addresses it remaps to leaves, in every well-formed configuration (41_serial.md, Register select and the two windows).
That the remap keeps the offset is the spec's decision D6 (log 17). -/
def Obligations.LegacyAliasIsTheNativeAdapter : Prop :=
  ∀ (c : Config) (l : List (Bool × Nat × Byte)) (s : State), c.WellFormed → (∀ x ∈ l, x.2.1 < c.map.serLeg.size) →
    l.foldl (fun u x => transact c (packWord x.1 (BitVec.ofNat 16 (c.map.serLeg.lo + x.2.1)) x.2.2) u) s =
      l.foldl (fun u x => transact c (packWord x.1 (BitVec.ofNat 16 (c.map.serNat.lo + x.2.1)) x.2.2) u) s

/-- RAM round trip, in every well-formed configuration: a write of `v` to an address of the RAM window, then a read of it, returns
`v`; a read of an address with another index returns what it would have returned (40_bus.md, Properties of the decoder; 90 C7). -/
def Obligations.RamRoundTrip : Prop :=
  ∀ (c : Config) (a b : Addr) (v : Byte) (s : State), c.WellFormed → c.map.ramW.Contains a → c.map.ramW.Contains b →
    Memory.wf (c.unlisted .ram) s.ram →
    (memRead c a (memWrite c a v s)).result = some v ∧
    (a.toNat % c.ramSize ≠ b.toNat % c.ramSize →
      (memRead c b (memWrite c a v s)).result = (memRead c b s).result)

/-- With one byte waiting: a Status read shows RDRF, the Receive Data read returns that byte, and the Status read after it shows
RDRF clear, each of the three accesses through either window (41_serial.md, Errors, last rule). -/
def Obligations.SerialReceiveSequence : Prop :=
  ∀ (i j k : Instr) (a b e : Addr) (v : Byte) (s : State),
    i = .rdSerNatStatus a ∨ i = .rdSerLegStatus a → j = .rdSerNatRxdata b ∨ j = .rdSerLegRxdata b →
    k = .rdSerNatStatus e ∨ k = .rdSerLegStatus e → s.inQ = [v] →
    ∃ t u w, exec i s = .next t ∧ exec j t = .next u ∧ exec k u = .next w ∧
      (∃ x, t.result = some x ∧ x.getLsbD 0 = true ∧ t.inQ = s.inQ) ∧ u.result = some v ∧
      (∃ x, w.result = some x ∧ x.getLsbD 0 = false ∧ w.inQ = [])

/-- The values right after reset, element by element (70_reset_and_hazards.md, Power-on; the zero registers are the spec's decision
D11, the transmit-empty flag D7, the lock position D12, the phase D15, the ROM fill D19, the mismatch with no image yet log 9:
log 7, 8, 9, 15, 18). -/
def Obligations.ResetValues : Prop :=
  (∀ (b : Bank) (i : Nat), State.reset.peek Config.standard b i = 0x00) ∧
  State.reset.ser.control = 0x00 ∧ State.reset.ser.txdata = 0x00 ∧ State.reset.ser.rxlatch = 0x00 ∧
  State.reset.ser.tdreFlag = true ∧
  (∀ r c : Fin 8, (State.reset.kbd.rows[r]).getLsbD c.val = !(r == 0 && c == 0)) ∧
  State.reset.kbd.rowsel = 0x00 ∧ State.reset.kbd.rse = 0 ∧ State.reset.kbd.det = 0 ∧ State.reset.kbd.phase = .idle ∧
  State.reset.romLenMismatch = true

/-- The one ROM load copies the overlapping prefix of the image, keeps every other byte, reports a length mismatch, and changes
nothing else, in any configuration (44_host.md, ROM load; prefix placement is the spec's decision D19: log 9). -/
def Obligations.RomLoadCopiesTheOverlappingPrefix : Prop :=
  ∀ (c : Config) (img : List Byte) (s : State), s.romPort = .opened →
    ∃ t, hostStep c (.romLoad img) s = .next t ∧
      t = { s with rom := t.rom, romLenMismatch := decide (img.length ≠ c.romSize), romPort := .loaded } ∧
      ∀ i, t.peek c .rom i = if i < min img.length c.romSize then img.getD i 0 else s.peek c .rom i

/-- After the first transaction a ROM load is refused, and nothing but a new power-on opens the port again; a second load before it
is refused too (44_host.md, ROM load, last rule; the second is the model's reading: log 10). -/
def Obligations.SecondRomLoadIsRefused : Prop :=
  (∀ (s t : State) (w : BusWord) (rest : List Event), s.agenda = .bus w :: rest → step s = .next t → t.romPort = .closed) ∧
  (∀ (c : Config) (h : HostEvent) (s t : State), h ≠ .powerOn → s.romPort = .closed → hostStep c h s = .next t →
    t.romPort = .closed) ∧
  (∀ (c : Config) (img : List Byte) (s : State),
    (s.romPort = .closed → hostStep c (.romLoad img) s = .refused .romLoadAfterStart) ∧
    (s.romPort = .loaded → hostStep c (.romLoad img) s = .refused .romLoadTwice))

/-- A console arrival appends its byte to the input queue, a drain of `k` bytes hands the first `k` of the output queue to the host
in push order; neither changes anything else (44_host.md, Console transport; unbounded queues are the spec's decision D10:
log 12). -/
def Obligations.ConsoleArrivalAndDrain : Prop :=
  (∀ (s : State) (b : Byte) (rest : List Event), s.agenda = .host (.conIn b) :: rest →
    step s = .next { s with agenda := rest, inQ := s.inQ ++ [b] }) ∧
  (∀ (s : State) (k : Nat) (rest : List Event), s.agenda = .host (.conOut k) :: rest →
    ∃ t, step s = .next t ∧ t = { s with agenda := rest, outQ := t.outQ, hostOut := t.hostOut } ∧
      t.outQ.length = s.outQ.length - k ∧ ∃ d, t.hostOut = s.hostOut ++ d ∧ d ++ t.outQ = s.outQ)

/-- Apart from power-on and the ROM load no host interaction changes the block's state (44_host.md, The host table). -/
def Obligations.HostInteractionsKeepTheBlock : Prop :=
  ∀ (c : Config) (h : HostEvent) (s t : State), hostStep c h s = .next t → h ≠ .powerOn → (∀ img, h ≠ .romLoad img) →
    SameBlock s t

/-- A reset request sets the pending-action flag; the pacer's next check invokes the CPU collaborator's reset once and clears the
flag; the block and the console queues stay as they are (44_host.md, Reset request; that the block keeps its state is the spec's
decision D20: log 14). -/
def Obligations.ResetRequestReachesOnlyTheCpu : Prop :=
  ∀ (c : Config) (s t u : State), hostStep c .resetRequest s = .next t → hostStep c .pacerCheck t = .next u →
    t.pendingAction = .resetRequest ∧ t.cpuResets = s.cpuResets ∧ u.pendingAction = .none ∧ u.cpuResets = s.cpuResets + 1 ∧
    SameBlock s u ∧ u.inQ = s.inQ ∧ u.outQ = s.outQ

/-- Whatever the step, no transmitted byte is lost, dropped or reordered: what the host has drained followed by what is still
queued only grows, by at most one byte at its end (44_host.md, Console drain; 41_serial.md, Transmit Data write; the unbounded queue
is the spec's decision D10: log 12). It rests on choices of the model too: the drained bytes are the model's record (log 13), and
across a power-on event both they and the queue survive only because the model keeps them (log 11). -/
def Obligations.TransmittedBytesAreNeverLost : Prop :=
  ∀ s t : State, step s = .next t → ∃ p : List Byte, p.length ≤ 1 ∧ t.hostOut ++ t.outQ = s.hostOut ++ s.outQ ++ p

/-- Control, Transmit Data and the hidden transmit-empty flag are never observed: two machines that differ in nothing else go on
differing in nothing else, however many steps they take (10_state.md, Serial adapter registers). -/
def Obligations.WriteOnlyRegistersAreNeverObserved : Prop :=
  ∀ (n : Nat) (s s' t : State), s.hideWriteOnly = s'.hideWriteOnly → Sys2Proof.core.run n s = .next t →
    ∃ t', Sys2Proof.core.run n s' = .next t' ∧ t.hideWriteOnly = t'.hideWriteOnly

/-- Arrays in canonical form that read alike at every index are the same data (log 23). -/
def Obligations.CanonicalMemoryIsDeterminedByItsReads : Prop :=
  ∀ (fill : Byte) (m m' : Memory), Memory.wf fill m → Memory.wf fill m' →
    (∀ i, Memory.read fill m i = Memory.read fill m' i) → m = m'

/-- A power-on event brings every element of the block to its value after reset and keeps the console queues (70_reset_and_hazards.md,
Power-on; that it may start a new run at any time, and what it keeps, is the model's reading: log 11). -/
def Obligations.PowerOnStartsANewRun : Prop :=
  ∀ (s : State) (rest : List Event), s.agenda = .host .powerOn :: rest →
    ∃ t, step s = .next t ∧ SameBlock State.reset t ∧ t.romPort = .opened ∧ t.inQ = s.inQ ∧ t.outQ = s.outQ ∧ t.agenda = rest

/-- Regenerated from the standard `MAP`, the table has the masks and patterns of the opcode table's 52 rows, in its order
(30_encoding.md R64, R65; the default map is the spec's decision D1: log 1). -/
def Obligations.StandardMapRegeneratesTheOpcodeTable : Prop :=
  (regeneratedTable AddressMap.standard).map (fun r => (r.pattern, r.mask)) = opcodeTable.map (fun r => (r.pattern, r.mask))

/-- In every well-formed configuration every word selects exactly one row of the table regenerated from its `MAP`, and the block
driven by that table is the block driven by the semantic rules, which know no table, step for step (30_encoding.md R65; that one
row is selected is an inference the spec marks as its own, R64; the select of an odd window base is log 31). -/
def Obligations.RegeneratedTableFollowsTheBusRules : Prop :=
  ∀ c : Config, c.WellFormed →
    (∀ t : BusWord, ((regeneratedTable c.map).filter fun r => r.selects t).length = 1) ∧
    ∀ s : State, tableStep c s = busStep c s
end

