-- ==== Sys2Proof/Laws/Decode.lean ====
section
/-! SUPPORT. The fields of a transaction word, and when a word is selected by a row of the opcode table. -/

namespace Sys2Proof

variable (w : Bool) (a : Addr) (d : Byte)

/-- The number a word's fields make (R60). -/
theorem packWord_toNat : (packWord w a d).toNat = w.toNat * 2 ^ 24 + a.toNat * 2 ^ 8 + d.toNat := by
  have := a.isLt
  have := d.isLt
  cases w <;> simp [packWord] <;> omega

theorem wordAddr_toNat (t : BusWord) : (wordAddr t).toNat = t.toNat / 2 ^ 8 % 2 ^ 16 := by
  simp [wordAddr, Nat.shiftRight_eq_div_pow]

theorem wordData_toNat (t : BusWord) : (wordData t).toNat = t.toNat % 2 ^ 8 := by
  simp [wordData]

theorem wordWrite_toNat (t : BusWord) : (wordWrite t).toNat = t.toNat / 2 ^ 24 := by
  have := t.isLt
  have h : t.toNat / 2 ^ 24 < 2 := by omega
  simp only [wordWrite, BitVec.getLsbD, Nat.testBit, Nat.shiftRight_eq_div_pow, Nat.one_and_eq_mod_two]
  interval_cases t.toNat / 2 ^ 24 <;> rfl

@[simp] theorem wordAddr_packWord : wordAddr (packWord w a d) = a := by
  apply BitVec.eq_of_toNat_eq
  rw [wordAddr_toNat, packWord_toNat]
  have := a.isLt
  have := d.isLt
  omega

@[simp] theorem wordData_packWord : wordData (packWord w a d) = d := by
  apply BitVec.eq_of_toNat_eq
  rw [wordData_toNat, packWord_toNat]
  have := d.isLt
  omega

@[simp] theorem wordWrite_packWord : wordWrite (packWord w a d) = w := by
  have h : (wordWrite (packWord w a d)).toNat = w.toNat := by
    rw [wordWrite_toNat, packWord_toNat]
    have := a.isLt
    have := d.isLt
    omega
  cases hw : wordWrite (packWord w a d) <;> cases w <;> simp_all

/-- A word is its fields (R60). -/
theorem packWord_fields (t : BusWord) : packWord (wordWrite t) (wordAddr t) (wordData t) = t := by
  apply BitVec.eq_of_toNat_eq
  rw [packWord_toNat, wordWrite_toNat, wordAddr_toNat, wordData_toNat]
  have := t.isLt
  omega

/-- A mask of the bits from `k` up keeps what is left of a word when its low `k` bits are cleared. -/
theorem and_highMask (t : BusWord) (k : Nat) : t &&& (BitVec.allOnes 25 <<< k) = (t >>> k) <<< k := by
  ext i hi
  simp only [BitVec.getElem_and, BitVec.getElem_shiftLeft, BitVec.getElem_allOnes]
  by_cases h : i < k
  · simp [h]
  · simp [h, show k + (i - k) = i by omega, BitVec.getLsbD_eq_getElem hi]

/-- A word whose address lies in an aligned block of the map is selected by the block's row: `k` is how many low bits of the
word the row's mask leaves free. -/
theorem block_selects (k : Nat) {p m : BusWord} (hm : m = BitVec.allOnes 25 <<< k)
    (hn : (w.toNat * 2 ^ 24 + a.toNat * 2 ^ 8 + d.toNat) / 2 ^ k * 2 ^ k % 2 ^ 25 = p.toNat) :
    packWord w a d &&& m = p := by
  subst hm
  rw [and_highMask]
  apply BitVec.eq_of_toNat_eq
  rw [BitVec.toNat_shiftLeft, BitVec.toNat_ushiftRight, packWord_toNat, Nat.shiftLeft_eq, Nat.shiftRight_eq_div_pow, hn]

/-- Bit 8 of a word is bit 0 of its address, the serial register select (R64). -/
theorem and_selectBit : packWord w a d &&& 0x100 = if a.getLsbD 0 then 0x100 else 0 := by
  have hb : (packWord w a d).getLsbD 8 = a.getLsbD 0 := by
    conv_rhs => rw [← wordAddr_packWord w a d]
    simp [wordAddr]
  have h1 : (0x100 : BusWord) = BitVec.twoPow 25 8 := by decide
  rw [h1, BitVec.and_twoPow, hb]
  rfl

/-- A serial row is selected by the words of its window whose address has the row's select bit. -/
theorem serial_selects {p : BusWord} {b : Bool}
    (hn : (w.toNat * 2 ^ 24 + a.toNat * 2 ^ 8 + d.toNat) / 2 ^ 16 * 2 ^ 16 % 2 ^ 25 = p.toNat) (hb : a.getLsbD 0 = b) :
    packWord w a d &&& 0x1FF0100 = p ||| (if b then 0x100 else 0) := by
  have h : (0x1FF0100 : BusWord) = 0x1FF0000 ||| 0x100 := by decide
  rw [h, BitVec.and_or_distrib_left, block_selects w a d 16 (p := p) (by decide) hn, and_selectBit, hb]

theorem inBlock_iff {lo hi : Nat} : inBlock lo hi a = true ↔ lo ≤ a.toNat ∧ a.toNat ≤ hi := by
  simp [inBlock]

end Sys2Proof
end

