-- ==== Sys2Proof/Laws/State.lean ====
section
/-! SUPPORT. One lemma per field per update of the state, and what each update does to the model's read of one byte. -/

namespace Sys2Proof.Machine

open Sys2Proof

variable (s : State)

@[simp] theorem answer_ram (v : Byte) : (s.answer v).ram = s.ram := rfl
@[simp] theorem answer_rom (v : Byte) : (s.answer v).rom = s.rom := rfl
@[simp] theorem answer_vid (v : Byte) : (s.answer v).vid = s.vid := rfl
@[simp] theorem answer_ser (v : Byte) : (s.answer v).ser = s.ser := rfl
@[simp] theorem answer_kbd (v : Byte) : (s.answer v).kbd = s.kbd := rfl
@[simp] theorem answer_romLenMismatch (v : Byte) : (s.answer v).romLenMismatch = s.romLenMismatch := rfl
@[simp] theorem answer_inQ (v : Byte) : (s.answer v).inQ = s.inQ := rfl
@[simp] theorem answer_outQ (v : Byte) : (s.answer v).outQ = s.outQ := rfl
@[simp] theorem answer_hostOut (v : Byte) : (s.answer v).hostOut = s.hostOut := rfl
@[simp] theorem answer_result (v : Byte) : (s.answer v).result = some v := rfl
@[simp] theorem answer_romPort (v : Byte) : (s.answer v).romPort = s.romPort := rfl
@[simp] theorem answer_pendingAction (v : Byte) : (s.answer v).pendingAction = s.pendingAction := rfl
@[simp] theorem answer_cpuResets (v : Byte) : (s.answer v).cpuResets = s.cpuResets := rfl
@[simp] theorem answer_draws (v : Byte) : (s.answer v).draws = s.draws := rfl
@[simp] theorem answer_agenda (v : Byte) : (s.answer v).agenda = s.agenda := rfl
@[simp] theorem answer_bank (v : Byte) (k : Bank) : (s.answer v).bank k = s.bank k := by cases k <;> rfl
@[simp] theorem answer_peek (v : Byte) (g : Config) (k : Bank) (i : Nat) : (s.answer v).peek g k i = s.peek g k i := by cases k <;> rfl

@[simp] theorem acknowledge_ram : (s.acknowledge).ram = s.ram := rfl
@[simp] theorem acknowledge_rom : (s.acknowledge).rom = s.rom := rfl
@[simp] theorem acknowledge_vid : (s.acknowledge).vid = s.vid := rfl
@[simp] theorem acknowledge_ser : (s.acknowledge).ser = s.ser := rfl
@[simp] theorem acknowledge_kbd : (s.acknowledge).kbd = s.kbd := rfl
@[simp] theorem acknowledge_romLenMismatch : (s.acknowledge).romLenMismatch = s.romLenMismatch := rfl
@[simp] theorem acknowledge_inQ : (s.acknowledge).inQ = s.inQ := rfl
@[simp] theorem acknowledge_outQ : (s.acknowledge).outQ = s.outQ := rfl
@[simp] theorem acknowledge_hostOut : (s.acknowledge).hostOut = s.hostOut := rfl
@[simp] theorem acknowledge_result : (s.acknowledge).result = none := rfl
@[simp] theorem acknowledge_romPort : (s.acknowledge).romPort = s.romPort := rfl
@[simp] theorem acknowledge_pendingAction : (s.acknowledge).pendingAction = s.pendingAction := rfl
@[simp] theorem acknowledge_cpuResets : (s.acknowledge).cpuResets = s.cpuResets := rfl
@[simp] theorem acknowledge_draws : (s.acknowledge).draws = s.draws := rfl
@[simp] theorem acknowledge_agenda : (s.acknowledge).agenda = s.agenda := rfl
@[simp] theorem acknowledge_bank (k : Bank) : (s.acknowledge).bank k = s.bank k := by cases k <;> rfl
@[simp] theorem acknowledge_peek (g : Config) (k : Bank) (i : Nat) : (s.acknowledge).peek g k i = s.peek g k i := by cases k <;> rfl

@[simp] theorem pokeRam_ram (c : Config) (i : Nat) (v : Byte) : (s.pokeRam c i v).ram = Memory.write (c.unlisted .ram) s.ram i v := rfl
@[simp] theorem pokeRam_rom (c : Config) (i : Nat) (v : Byte) : (s.pokeRam c i v).rom = s.rom := rfl
@[simp] theorem pokeRam_vid (c : Config) (i : Nat) (v : Byte) : (s.pokeRam c i v).vid = s.vid := rfl
@[simp] theorem pokeRam_ser (c : Config) (i : Nat) (v : Byte) : (s.pokeRam c i v).ser = s.ser := rfl
@[simp] theorem pokeRam_kbd (c : Config) (i : Nat) (v : Byte) : (s.pokeRam c i v).kbd = s.kbd := rfl
@[simp] theorem pokeRam_romLenMismatch (c : Config) (i : Nat) (v : Byte) : (s.pokeRam c i v).romLenMismatch = s.romLenMismatch := rfl
@[simp] theorem pokeRam_inQ (c : Config) (i : Nat) (v : Byte) : (s.pokeRam c i v).inQ = s.inQ := rfl
@[simp] theorem pokeRam_outQ (c : Config) (i : Nat) (v : Byte) : (s.pokeRam c i v).outQ = s.outQ := rfl
@[simp] theorem pokeRam_hostOut (c : Config) (i : Nat) (v : Byte) : (s.pokeRam c i v).hostOut = s.hostOut := rfl
@[simp] theorem pokeRam_result (c : Config) (i : Nat) (v : Byte) : (s.pokeRam c i v).result = s.result := rfl
@[simp] theorem pokeRam_romPort (c : Config) (i : Nat) (v : Byte) : (s.pokeRam c i v).romPort = s.romPort := rfl
@[simp] theorem pokeRam_pendingAction (c : Config) (i : Nat) (v : Byte) : (s.pokeRam c i v).pendingAction = s.pendingAction := rfl
@[simp] theorem pokeRam_cpuResets (c : Config) (i : Nat) (v : Byte) : (s.pokeRam c i v).cpuResets = s.cpuResets := rfl
@[simp] theorem pokeRam_draws (c : Config) (i : Nat) (v : Byte) : (s.pokeRam c i v).draws = s.draws := rfl
@[simp] theorem pokeRam_agenda (c : Config) (i : Nat) (v : Byte) : (s.pokeRam c i v).agenda = s.agenda := rfl

@[simp] theorem pokeVid_ram (c : Config) (i : Nat) (v : Byte) : (s.pokeVid c i v).ram = s.ram := rfl
@[simp] theorem pokeVid_rom (c : Config) (i : Nat) (v : Byte) : (s.pokeVid c i v).rom = s.rom := rfl
@[simp] theorem pokeVid_vid (c : Config) (i : Nat) (v : Byte) : (s.pokeVid c i v).vid = Memory.write (c.unlisted .vid) s.vid i v := rfl
@[simp] theorem pokeVid_ser (c : Config) (i : Nat) (v : Byte) : (s.pokeVid c i v).ser = s.ser := rfl
@[simp] theorem pokeVid_kbd (c : Config) (i : Nat) (v : Byte) : (s.pokeVid c i v).kbd = s.kbd := rfl
@[simp] theorem pokeVid_romLenMismatch (c : Config) (i : Nat) (v : Byte) : (s.pokeVid c i v).romLenMismatch = s.romLenMismatch := rfl
@[simp] theorem pokeVid_inQ (c : Config) (i : Nat) (v : Byte) : (s.pokeVid c i v).inQ = s.inQ := rfl
@[simp] theorem pokeVid_outQ (c : Config) (i : Nat) (v : Byte) : (s.pokeVid c i v).outQ = s.outQ := rfl
@[simp] theorem pokeVid_hostOut (c : Config) (i : Nat) (v : Byte) : (s.pokeVid c i v).hostOut = s.hostOut := rfl
@[simp] theorem pokeVid_result (c : Config) (i : Nat) (v : Byte) : (s.pokeVid c i v).result = s.result := rfl
@[simp] theorem pokeVid_romPort (c : Config) (i : Nat) (v : Byte) : (s.pokeVid c i v).romPort = s.romPort := rfl
@[simp] theorem pokeVid_pendingAction (c : Config) (i : Nat) (v : Byte) : (s.pokeVid c i v).pendingAction = s.pendingAction := rfl
@[simp] theorem pokeVid_cpuResets (c : Config) (i : Nat) (v : Byte) : (s.pokeVid c i v).cpuResets = s.cpuResets := rfl
@[simp] theorem pokeVid_draws (c : Config) (i : Nat) (v : Byte) : (s.pokeVid c i v).draws = s.draws := rfl
@[simp] theorem pokeVid_agenda (c : Config) (i : Nat) (v : Byte) : (s.pokeVid c i v).agenda = s.agenda := rfl

@[simp] theorem conPush_ram (b : Byte) : (s.conPush b).ram = s.ram := rfl
@[simp] theorem conPush_rom (b : Byte) : (s.conPush b).rom = s.rom := rfl
@[simp] theorem conPush_vid (b : Byte) : (s.conPush b).vid = s.vid := rfl
@[simp] theorem conPush_ser (b : Byte) : (s.conPush b).ser = s.ser := rfl
@[simp] theorem conPush_kbd (b : Byte) : (s.conPush b).kbd = s.kbd := rfl
@[simp] theorem conPush_romLenMismatch (b : Byte) : (s.conPush b).romLenMismatch = s.romLenMismatch := rfl
@[simp] theorem conPush_inQ (b : Byte) : (s.conPush b).inQ = s.inQ := rfl
@[simp] theorem conPush_outQ (b : Byte) : (s.conPush b).outQ = s.outQ ++ [b] := rfl
@[simp] theorem conPush_hostOut (b : Byte) : (s.conPush b).hostOut = s.hostOut := rfl
@[simp] theorem conPush_result (b : Byte) : (s.conPush b).result = s.result := rfl
@[simp] theorem conPush_romPort (b : Byte) : (s.conPush b).romPort = s.romPort := rfl
@[simp] theorem conPush_pendingAction (b : Byte) : (s.conPush b).pendingAction = s.pendingAction := rfl
@[simp] theorem conPush_cpuResets (b : Byte) : (s.conPush b).cpuResets = s.cpuResets := rfl
@[simp] theorem conPush_draws (b : Byte) : (s.conPush b).draws = s.draws := rfl
@[simp] theorem conPush_agenda (b : Byte) : (s.conPush b).agenda = s.agenda := rfl
@[simp] theorem conPush_bank (b : Byte) (k : Bank) : (s.conPush b).bank k = s.bank k := by cases k <;> rfl
@[simp] theorem conPush_peek (b : Byte) (g : Config) (k : Bank) (i : Nat) : (s.conPush b).peek g k i = s.peek g k i := by cases k <;> rfl

@[simp] theorem latchRx_ram (b : Byte) : (s.latchRx b).ram = s.ram := rfl
@[simp] theorem latchRx_rom (b : Byte) : (s.latchRx b).rom = s.rom := rfl
@[simp] theorem latchRx_vid (b : Byte) : (s.latchRx b).vid = s.vid := rfl
@[simp] theorem latchRx_ser (b : Byte) : (s.latchRx b).ser = { s.ser with rxlatch := b } := rfl
@[simp] theorem latchRx_kbd (b : Byte) : (s.latchRx b).kbd = s.kbd := rfl
@[simp] theorem latchRx_romLenMismatch (b : Byte) : (s.latchRx b).romLenMismatch = s.romLenMismatch := rfl
@[simp] theorem latchRx_inQ (b : Byte) : (s.latchRx b).inQ = s.inQ := rfl
@[simp] theorem latchRx_outQ (b : Byte) : (s.latchRx b).outQ = s.outQ := rfl
@[simp] theorem latchRx_hostOut (b : Byte) : (s.latchRx b).hostOut = s.hostOut := rfl
@[simp] theorem latchRx_result (b : Byte) : (s.latchRx b).result = s.result := rfl
@[simp] theorem latchRx_romPort (b : Byte) : (s.latchRx b).romPort = s.romPort := rfl
@[simp] theorem latchRx_pendingAction (b : Byte) : (s.latchRx b).pendingAction = s.pendingAction := rfl
@[simp] theorem latchRx_cpuResets (b : Byte) : (s.latchRx b).cpuResets = s.cpuResets := rfl
@[simp] theorem latchRx_draws (b : Byte) : (s.latchRx b).draws = s.draws := rfl
@[simp] theorem latchRx_agenda (b : Byte) : (s.latchRx b).agenda = s.agenda := rfl
@[simp] theorem latchRx_bank (b : Byte) (k : Bank) : (s.latchRx b).bank k = s.bank k := by cases k <;> rfl
@[simp] theorem latchRx_peek (b : Byte) (g : Config) (k : Bank) (i : Nat) : (s.latchRx b).peek g k i = s.peek g k i := by cases k <;> rfl

@[simp] theorem setRowsel_ram (d : Byte) : (s.setRowsel d).ram = s.ram := rfl
@[simp] theorem setRowsel_rom (d : Byte) : (s.setRowsel d).rom = s.rom := rfl
@[simp] theorem setRowsel_vid (d : Byte) : (s.setRowsel d).vid = s.vid := rfl
@[simp] theorem setRowsel_ser (d : Byte) : (s.setRowsel d).ser = s.ser := rfl
@[simp] theorem setRowsel_kbd (d : Byte) : (s.setRowsel d).kbd = { s.kbd with rowsel := d } := rfl
@[simp] theorem setRowsel_romLenMismatch (d : Byte) : (s.setRowsel d).romLenMismatch = s.romLenMismatch := rfl
@[simp] theorem setRowsel_inQ (d : Byte) : (s.setRowsel d).inQ = s.inQ := rfl
@[simp] theorem setRowsel_outQ (d : Byte) : (s.setRowsel d).outQ = s.outQ := rfl
@[simp] theorem setRowsel_hostOut (d : Byte) : (s.setRowsel d).hostOut = s.hostOut := rfl
@[simp] theorem setRowsel_result (d : Byte) : (s.setRowsel d).result = s.result := rfl
@[simp] theorem setRowsel_romPort (d : Byte) : (s.setRowsel d).romPort = s.romPort := rfl
@[simp] theorem setRowsel_pendingAction (d : Byte) : (s.setRowsel d).pendingAction = s.pendingAction := rfl
@[simp] theorem setRowsel_cpuResets (d : Byte) : (s.setRowsel d).cpuResets = s.cpuResets := rfl
@[simp] theorem setRowsel_draws (d : Byte) : (s.setRowsel d).draws = s.draws := rfl
@[simp] theorem setRowsel_agenda (d : Byte) : (s.setRowsel d).agenda = s.agenda := rfl
@[simp] theorem setRowsel_bank (d : Byte) (k : Bank) : (s.setRowsel d).bank k = s.bank k := by cases k <;> rfl
@[simp] theorem setRowsel_peek (d : Byte) (g : Config) (k : Bank) (i : Nat) : (s.setRowsel d).peek g k i = s.peek g k i := by cases k <;> rfl

@[simp] theorem beginTransaction_ram (rest : List Event) : (s.beginTransaction rest).ram = s.ram := rfl
@[simp] theorem beginTransaction_rom (rest : List Event) : (s.beginTransaction rest).rom = s.rom := rfl
@[simp] theorem beginTransaction_vid (rest : List Event) : (s.beginTransaction rest).vid = s.vid := rfl
@[simp] theorem beginTransaction_ser (rest : List Event) : (s.beginTransaction rest).ser = s.ser := rfl
@[simp] theorem beginTransaction_kbd (rest : List Event) : (s.beginTransaction rest).kbd = s.kbd := rfl
@[simp] theorem beginTransaction_romLenMismatch (rest : List Event) : (s.beginTransaction rest).romLenMismatch = s.romLenMismatch := rfl
@[simp] theorem beginTransaction_inQ (rest : List Event) : (s.beginTransaction rest).inQ = s.inQ := rfl
@[simp] theorem beginTransaction_outQ (rest : List Event) : (s.beginTransaction rest).outQ = s.outQ := rfl
@[simp] theorem beginTransaction_hostOut (rest : List Event) : (s.beginTransaction rest).hostOut = s.hostOut := rfl
@[simp] theorem beginTransaction_result (rest : List Event) : (s.beginTransaction rest).result = s.result := rfl
@[simp] theorem beginTransaction_romPort (rest : List Event) : (s.beginTransaction rest).romPort = .closed := rfl
@[simp] theorem beginTransaction_pendingAction (rest : List Event) : (s.beginTransaction rest).pendingAction = s.pendingAction := rfl
@[simp] theorem beginTransaction_cpuResets (rest : List Event) : (s.beginTransaction rest).cpuResets = s.cpuResets := rfl
@[simp] theorem beginTransaction_draws (rest : List Event) : (s.beginTransaction rest).draws = s.draws := rfl
@[simp] theorem beginTransaction_agenda (rest : List Event) : (s.beginTransaction rest).agenda = rest := rfl
@[simp] theorem beginTransaction_bank (rest : List Event) (k : Bank) : (s.beginTransaction rest).bank k = s.bank k := by cases k <;> rfl
@[simp] theorem beginTransaction_peek (rest : List Event) (g : Config) (k : Bank) (i : Nat) : (s.beginTransaction rest).peek g k i = s.peek g k i := by cases k <;> rfl

@[simp] theorem beginHost_ram (rest : List Event) : (s.beginHost rest).ram = s.ram := rfl
@[simp] theorem beginHost_rom (rest : List Event) : (s.beginHost rest).rom = s.rom := rfl
@[simp] theorem beginHost_vid (rest : List Event) : (s.beginHost rest).vid = s.vid := rfl
@[simp] theorem beginHost_ser (rest : List Event) : (s.beginHost rest).ser = s.ser := rfl
@[simp] theorem beginHost_kbd (rest : List Event) : (s.beginHost rest).kbd = s.kbd := rfl
@[simp] theorem beginHost_romLenMismatch (rest : List Event) : (s.beginHost rest).romLenMismatch = s.romLenMismatch := rfl
@[simp] theorem beginHost_inQ (rest : List Event) : (s.beginHost rest).inQ = s.inQ := rfl
@[simp] theorem beginHost_outQ (rest : List Event) : (s.beginHost rest).outQ = s.outQ := rfl
@[simp] theorem beginHost_hostOut (rest : List Event) : (s.beginHost rest).hostOut = s.hostOut := rfl
@[simp] theorem beginHost_result (rest : List Event) : (s.beginHost rest).result = s.result := rfl
@[simp] theorem beginHost_romPort (rest : List Event) : (s.beginHost rest).romPort = s.romPort := rfl
@[simp] theorem beginHost_pendingAction (rest : List Event) : (s.beginHost rest).pendingAction = s.pendingAction := rfl
@[simp] theorem beginHost_cpuResets (rest : List Event) : (s.beginHost rest).cpuResets = s.cpuResets := rfl
@[simp] theorem beginHost_draws (rest : List Event) : (s.beginHost rest).draws = s.draws := rfl
@[simp] theorem beginHost_agenda (rest : List Event) : (s.beginHost rest).agenda = rest := rfl
@[simp] theorem beginHost_bank (rest : List Event) (k : Bank) : (s.beginHost rest).bank k = s.bank k := by cases k <;> rfl
@[simp] theorem beginHost_peek (rest : List Event) (g : Config) (k : Bank) (i : Nat) : (s.beginHost rest).peek g k i = s.peek g k i := by cases k <;> rfl

@[simp] theorem withFetchWord_ram (n w : Nat) : (s.withFetchWord n w).ram = s.ram := rfl
@[simp] theorem withFetchWord_rom (n w : Nat) : (s.withFetchWord n w).rom = s.rom := rfl
@[simp] theorem withFetchWord_vid (n w : Nat) : (s.withFetchWord n w).vid = s.vid := rfl
@[simp] theorem withFetchWord_ser (n w : Nat) : (s.withFetchWord n w).ser = s.ser := rfl
@[simp] theorem withFetchWord_kbd (n w : Nat) : (s.withFetchWord n w).kbd = s.kbd := rfl
@[simp] theorem withFetchWord_romLenMismatch (n w : Nat) : (s.withFetchWord n w).romLenMismatch = s.romLenMismatch := rfl
@[simp] theorem withFetchWord_inQ (n w : Nat) : (s.withFetchWord n w).inQ = s.inQ := rfl
@[simp] theorem withFetchWord_outQ (n w : Nat) : (s.withFetchWord n w).outQ = s.outQ := rfl
@[simp] theorem withFetchWord_hostOut (n w : Nat) : (s.withFetchWord n w).hostOut = s.hostOut := rfl
@[simp] theorem withFetchWord_result (n w : Nat) : (s.withFetchWord n w).result = s.result := rfl
@[simp] theorem withFetchWord_romPort (n w : Nat) : (s.withFetchWord n w).romPort = s.romPort := rfl
@[simp] theorem withFetchWord_pendingAction (n w : Nat) : (s.withFetchWord n w).pendingAction = s.pendingAction := rfl
@[simp] theorem withFetchWord_cpuResets (n w : Nat) : (s.withFetchWord n w).cpuResets = s.cpuResets := rfl
@[simp] theorem withFetchWord_draws (n w : Nat) : (s.withFetchWord n w).draws = s.draws := rfl
@[simp] theorem withFetchWord_agenda (n w : Nat) : (s.withFetchWord n w).agenda = .bus (BitVec.ofNat 25 (w % 2 ^ n)) :: s.agenda := rfl
@[simp] theorem withFetchWord_bank (n w : Nat) (k : Bank) : (s.withFetchWord n w).bank k = s.bank k := by cases k <;> rfl
@[simp] theorem withFetchWord_peek (n w : Nat) (g : Config) (k : Bank) (i : Nat) : (s.withFetchWord n w).peek g k i = s.peek g k i := by cases k <;> rfl

@[simp] theorem bank_ram : s.bank .ram = s.ram := rfl
@[simp] theorem bank_rom : s.bank .rom = s.rom := rfl
@[simp] theorem bank_vid : s.bank .vid = s.vid := rfl

end Sys2Proof.Machine
end

