-- ==== Sys2Proof/Laws/Memory.lean ====
section
/-! SUPPORT. The laws of the sparse arrays: a read after a write, and that every memory operation keeps the canonical form. -/

namespace Sys2Proof.Machine

open Sys2Proof

variable {fill : Byte}

@[simp] theorem read_nil (i : Nat) : Memory.read fill [] i = fill := rfl

/-- The canonical form of a non-empty array: its head and its tail. -/
theorem wf_cons {k : Nat} {v : Byte} {m : Memory} :
    Memory.wf fill ((k, v) :: m) ↔ (∀ c ∈ m, k < c.1) ∧ v ≠ fill ∧ Memory.wf fill m := by
  simp only [Memory.wf, List.map_cons, List.pairwise_cons, List.forall_mem_cons, List.mem_map]
  constructor
  · rintro ⟨⟨h1, h2⟩, h3, h4⟩
    exact ⟨fun c hc => h1 _ ⟨c, hc, rfl⟩, h3, h2, h4⟩
  · rintro ⟨h1, h2, h3, h4⟩
    exact ⟨⟨by rintro _ ⟨c, hc, rfl⟩; exact h1 c hc, h3⟩, h2, h4⟩

/-- An index no cell lists reads as the fill. -/
theorem read_unlisted {m : Memory} {i : Nat} (h : ∀ c ∈ m, c.1 ≠ i) : Memory.read fill m i = fill := by
  induction m with
  | nil => rfl
  | cons c m ih =>
    obtain ⟨k, v⟩ := c
    have hk : k ≠ i := h (k, v) (by simp)
    simp only [Memory.read, if_neg hk]
    exact ih fun c hc => h c (by simp [hc])

/-- A write changes no other index. -/
theorem read_write_other {m : Memory} {i j : Nat} (b : Byte) (h : j ≠ i) :
    Memory.read fill (Memory.write fill m i b) j = Memory.read fill m j := by
  induction m with
  | nil => by_cases hb : b = fill <;> simp [Memory.write, Memory.read, hb, Ne.symm h]
  | cons c m ih =>
    obtain ⟨k, v⟩ := c
    simp only [Memory.write]
    split
    · split <;> simp [Memory.read, Ne.symm h]
    · split
      · rename_i _ hk
        subst hk
        split <;> simp [Memory.read, Ne.symm h]
      · simp [Memory.read, ih]

/-- A read of the index just written gives the byte written, in an array of canonical form. -/
theorem read_write_same {m : Memory} (hm : Memory.wf fill m) (i : Nat) (b : Byte) :
    Memory.read fill (Memory.write fill m i b) i = b := by
  induction m with
  | nil => by_cases hb : b = fill <;> simp [Memory.write, Memory.read, hb]
  | cons c m ih =>
    obtain ⟨k, v⟩ := c
    obtain ⟨hlt, -, hw⟩ := wf_cons.1 hm
    simp only [Memory.write]
    split
    · rename_i hik
      split
      · rename_i hb
        rw [hb]
        refine read_unlisted ?_
        simp only [List.forall_mem_cons]
        exact ⟨by omega, fun c hc => by have := hlt c hc; omega⟩
      · simp [Memory.read]
    · split
      · rename_i hk
        split
        · rename_i hb
          rw [hb]
          exact read_unlisted fun c hc => by have := hlt c hc; omega
        · simp [Memory.read]
      · rename_i hk
        simp only [Memory.read, if_neg (Ne.symm hk)]
        exact ih hw

/-- The indexes a written array lists: those it listed, and perhaps the one written. -/
theorem mem_write {m : Memory} {i : Nat} {b : Byte} {c : Host.Cell} (h : c ∈ Memory.write fill m i b) :
    c ∈ m ∨ (c = (i, b) ∧ b ≠ fill) := by
  induction m with
  | nil => by_cases hb : b = fill <;> simp_all [Memory.write]
  | cons d m ih =>
    obtain ⟨k, v⟩ := d
    simp only [Memory.write] at h
    split at h
    · split at h
      · exact .inl h
      · rcases List.mem_cons.1 h with rfl | h
        · exact .inr ⟨rfl, by assumption⟩
        · exact .inl h
    · split at h
      · split at h
        · exact .inl (List.mem_cons_of_mem _ h)
        · rcases List.mem_cons.1 h with rfl | h
          · exact .inr ⟨rfl, by assumption⟩
          · exact .inl (List.mem_cons_of_mem _ h)
      · rcases List.mem_cons.1 h with rfl | h
        · simp
        · rcases ih h with h | h
          · exact .inl (List.mem_cons_of_mem _ h)
          · exact .inr h

/-- A write keeps the canonical form. -/
theorem write_wf {m : Memory} (hm : Memory.wf fill m) (i : Nat) (b : Byte) : Memory.wf fill (Memory.write fill m i b) := by
  induction m with
  | nil => by_cases hb : b = fill <;> simp [Memory.write, Memory.wf, hb]
  | cons c m ih =>
    obtain ⟨k, v⟩ := c
    obtain ⟨hlt, hv, hw⟩ := wf_cons.1 hm
    simp only [Memory.write]
    split
    · rename_i hik
      split
      · exact hm
      · rename_i hb
        refine wf_cons.2 ⟨?_, hb, hm⟩
        simp only [List.forall_mem_cons]
        exact ⟨hik, fun c hc => by have := hlt c hc; omega⟩
    · split
      · rename_i hk
        split
        · exact hw
        · rename_i hb
          exact wf_cons.2 ⟨fun c hc => by have := hlt c hc; omega, hb, hw⟩
      · refine wf_cons.2 ⟨fun c hc => ?_, hv, ih hw⟩
        rcases mem_write hc with h | ⟨rfl, -⟩
        · exact hlt c h
        · simp only; omega

/-- A write below the bound keeps the bound. -/
theorem write_below {m : Memory} {n i : Nat} (hm : Memory.below n m) (hi : i < n) (b : Byte) :
    Memory.below n (Memory.write fill m i b) := by
  intro c hc
  rcases mem_write hc with h | ⟨rfl, -⟩
  · exact hm c h
  · exact hi

/-- The cells of a byte list from index `i` on: their indexes lie in its range, and none holds the fill. -/
theorem mem_ofBytes {i : Nat} {bs : List Byte} {c : Host.Cell} (h : c ∈ Memory.ofBytes fill i bs) :
    i ≤ c.1 ∧ c.1 < i + bs.length ∧ c.2 ≠ fill := by
  induction bs generalizing i with
  | nil => simp [Memory.ofBytes] at h
  | cons b bs ih =>
    simp only [Memory.ofBytes] at h
    simp only [List.length_cons]
    split at h
    · have := ih h
      exact ⟨by omega, by omega, this.2.2⟩
    · rcases List.mem_cons.1 h with rfl | h
      · exact ⟨le_refl _, by omega, by assumption⟩
      · have := ih h
        exact ⟨by omega, by omega, this.2.2⟩

theorem ofBytes_wf (i : Nat) (bs : List Byte) : Memory.wf fill (Memory.ofBytes fill i bs) := by
  induction bs generalizing i with
  | nil => simp [Memory.ofBytes, Memory.wf]
  | cons b bs ih =>
    simp only [Memory.ofBytes]
    split
    · exact ih _
    · exact wf_cons.2 ⟨fun c hc => by have := mem_ofBytes hc; omega, by assumption, ih _⟩

theorem read_ofBytes {i j : Nat} {bs : List Byte} (h : j < bs.length) :
    Memory.read fill (Memory.ofBytes fill i bs) (i + j) = bs[j] := by
  induction bs generalizing i j with
  | nil => simp at h
  | cons b bs ih =>
    cases j with
    | zero =>
      simp only [Memory.ofBytes, Nat.add_zero, List.getElem_cons_zero]
      split
      · rename_i hb
        rw [hb]
        exact read_unlisted fun c hc => by have := mem_ofBytes hc; omega
      · simp [Memory.read]
    | succ j =>
      have e : i + (j + 1) = (i + 1) + j := by omega
      simp only [Memory.ofBytes, List.getElem_cons_succ, e]
      split
      · exact ih (by simpa using h)
      · rw [Memory.read, if_neg (by omega)]
        exact ih (by simpa using h)

/-- Reading an array made of two parts: the first part answers where it lists the index. -/
theorem read_append (m m' : Memory) (i : Nat) :
    Memory.read fill (m ++ m') i = if ∃ c ∈ m, c.1 = i then Memory.read fill m i else Memory.read fill m' i := by
  induction m with
  | nil => simp
  | cons c m ih =>
    obtain ⟨k, v⟩ := c
    by_cases hk : k = i
    · simp [Memory.read, hk]
    · simp [Memory.read, hk, ih]

theorem read_filter_ge {m : Memory} {n i : Nat} (h : n ≤ i) :
    Memory.read fill (m.filter fun c => decide (n ≤ c.1)) i = Memory.read fill m i := by
  induction m with
  | nil => rfl
  | cons c m ih =>
    obtain ⟨k, v⟩ := c
    by_cases hk : n ≤ k
    · simp [hk, Memory.read, ih]
    · have : k ≠ i := by omega
      simp [hk, Memory.read, ih, this]

/-- A load keeps the canonical form. -/
theorem load_wf {m : Memory} (hm : Memory.wf fill m) (bs : List Byte) : Memory.wf fill (Memory.load fill m bs) := by
  obtain ⟨h1, h2⟩ := ofBytes_wf (fill := fill) 0 bs
  refine ⟨?_, ?_⟩
  · simp only [Memory.load, List.map_append, List.pairwise_append]
    refine ⟨h1, hm.1.sublist (List.filter_sublist.map _), ?_⟩
    simp only [List.mem_map, List.mem_filter, decide_eq_true_eq]
    rintro _ ⟨c, hc, rfl⟩ _ ⟨d, ⟨-, hd⟩, rfl⟩
    have := mem_ofBytes hc
    omega
  · intro c hc
    rcases List.mem_append.1 hc with h | h
    · exact h2 c h
    · exact hm.2 c (List.mem_filter.1 h).1

/-- A load of at most `n` bytes keeps the bound `n`. -/
theorem load_below {m : Memory} {n : Nat} (hm : Memory.below n m) {bs : List Byte} (h : bs.length ≤ n) :
    Memory.below n (Memory.load fill m bs) := by
  intro c hc
  rcases List.mem_append.1 hc with h' | h'
  · have := mem_ofBytes h'
    omega
  · exact hm c (List.mem_filter.1 h').1

/-- What a loaded array reads as: the bytes, then what it held. -/
theorem read_load (m : Memory) (bs : List Byte) (i : Nat) :
    Memory.read fill (Memory.load fill m bs) i = if h : i < bs.length then bs[i] else Memory.read fill m i := by
  rw [Memory.load, read_append]
  by_cases hi : i < bs.length
  · have h := read_ofBytes (fill := fill) (i := 0) (j := i) hi
    simp only [Nat.zero_add] at h
    rw [dif_pos hi]
    split
    · exact h
    · rename_i hn
      rw [← h, read_unlisted (fill := fill) (m := Memory.ofBytes fill 0 bs) fun c hc e => hn ⟨c, hc, e⟩]
      refine read_unlisted fun c hc e => ?_
      have := (List.mem_filter.1 hc).2
      simp only [decide_eq_true_eq] at this
      omega
  · rw [dif_neg hi, if_neg, read_filter_ge (by omega)]
    rintro ⟨c, hc, rfl⟩
    have := mem_ofBytes hc
    omega

/-- The model's read of one byte, after a RAM write. -/
theorem peek_pokeRam {c : Config} {s : State} (hm : Memory.wf (c.unlisted .ram) s.ram) (i j : Nat) (v : Byte) (b : Bank) :
    (s.pokeRam c i v).peek c b j = if b = .ram ∧ j = i then v else s.peek c b j := by
  cases b
  · by_cases h : j = i
    · subst h
      simpa [State.peek] using read_write_same hm j v
    · simpa [h, State.peek] using read_write_other v h
  · simp [State.peek, State.bank]
  · simp [State.peek, State.bank]

/-- The model's read of one byte, after a video write. -/
theorem peek_pokeVid {c : Config} {s : State} (hm : Memory.wf (c.unlisted .vid) s.vid) (i j : Nat) (v : Byte) (b : Bank) :
    (s.pokeVid c i v).peek c b j = if b = .vid ∧ j = i then v else s.peek c b j := by
  cases b
  · simp [State.peek, State.bank]
  · simp [State.peek, State.bank]
  · by_cases h : j = i
    · subst h
      simpa [State.peek] using read_write_same hm j v
    · simpa [h, State.peek] using read_write_other v h

/-- The memory right after reset is in canonical form. -/
theorem reset_wf (b : Bank) : Memory.wf (Config.standard.unlisted b) (State.reset.bank b) := by
  cases b <;> decide

end Sys2Proof.Machine
end

