-- ==== Sys2Proof/Laws/Ops.lean ====
section
/-! SUPPORT. What each shared operation does, said once: the console primitives, the poll of a keyboard-window access, the Receive
Data read, the Status byte, the array indexes, the keyboard's press and release, and what any instruction can do. -/

namespace Sys2Proof.Machine

open Sys2Proof

variable {c : Config} {s t : State} {k : Keyboard}

@[simp] theorem conPop_nil (h : s.inQ = []) : s.conPop = none := by simp [State.conPop, h]

@[simp] theorem conPop_cons {b : Byte} {q : List Byte} (h : s.inQ = b :: q) :
    s.conPop = some (b, { s with inQ := q }) := by simp [State.conPop, h]

@[simp] theorem conReady_iff : s.conReady = true ↔ s.inQ ≠ [] := by
  cases h : s.inQ <;> simp [State.conReady, h]

/-- The Status byte by the state of the input queue (R31, R103). -/
theorem statusByte_eq : statusByte s = if s.inQ = [] then 0x02 else 0x03 := by
  unfold statusByte rdrf tdre State.conReady
  cases s.inQ <;> simp

/-- All a keyboard-window access does before it acts: the head of the input queue goes, the pending key is pressed (R123). -/
theorem kbdPoll_eq (c : Config) (s : State) : kbdPoll c s = { s with inQ := s.inQ.tail, kbd := pollKeyboard c s } := by
  rcases s with ⟨ram, rom, vid, ser, kbd, m, inQ, outQ, out, res, port, act, n, dr, ag⟩
  cases inQ with
  | nil => rfl
  | cons b q =>
    simp only [kbdPoll, State.conPop, pollKeyboard, pendingKey, List.tail_cons]
    cases c.keymap (normalizeKey c b) <;> rfl

/-- A Receive Data read with a byte available (R104). -/
theorem serialRxRead_ready {b : Byte} {q : List Byte} (h : s.inQ = b :: q) :
    serialRxRead c s = { s with inQ := q, ser := { s.ser with rxlatch := b }, result := some b } := by
  simp [serialRxRead, conPop_cons h, State.latchRx, State.answer]

/-- A Receive Data read with no byte available, under the policy `Latch` (R104). -/
theorem serialRxRead_latch (h : s.inQ = []) (hc : c.rxEmptyRead = .latch) :
    serialRxRead c s = { s with result := some s.ser.rxlatch } := by
  simp [serialRxRead, conPop_nil h, serialRxEmpty, hc, State.answer]

/-- A Receive Data read with no byte available, under the policy `Any` (R104). -/
theorem serialRxRead_any (h : s.inQ = []) (hc : c.rxEmptyRead = .any) :
    serialRxRead c s = { s with draws := s.draws + 1, result := some (Config.freeByte s.draws) } := by
  simp [serialRxRead, conPop_nil h, serialRxEmpty, hc, State.answer]

/-- The RAM index of a power-of-two array is the address modulo its size (R11). -/
theorem ramIndex_eq_mod (h : ∃ n, c.ramSize = 2 ^ n) (a : Addr) : ramIndex c a = a.toNat % c.ramSize := by
  obtain ⟨n, h⟩ := h
  rw [ramIndex, h, Nat.and_two_pow_sub_one_eq_mod]

/-- The ROM index of a power-of-two array is the address modulo its size (R11). -/
theorem romIndex_eq_mod (h : ∃ n, c.romSize = 2 ^ n) (a : Addr) : romIndex c a = a.toNat % c.romSize := by
  obtain ⟨n, h⟩ := h
  rw [romIndex, h, Nat.and_two_pow_sub_one_eq_mod]

theorem standard_ramSize : ∃ n, Config.standard.ramSize = 2 ^ n := ⟨15, rfl⟩

theorem standard_romSize : ∃ n, Config.standard.romSize = 2 ^ n := ⟨15, rfl⟩

@[simp] theorem press_rowsel (p : KeyPos) : (press p k).rowsel = k.rowsel := rfl
@[simp] theorem press_rse (p : KeyPos) : (press p k).rse = 0 := rfl
@[simp] theorem press_det (p : KeyPos) : (press p k).det = k.det := rfl
@[simp] theorem press_phase (p : KeyPos) : (press p k).phase = .pressedRecently := rfl

@[simp] theorem forcedRelease_rows : (forcedRelease k).rows = Vector.replicate 8 0xFF := rfl
@[simp] theorem forcedRelease_rowsel : (forcedRelease k).rowsel = k.rowsel := rfl
@[simp] theorem forcedRelease_rse : (forcedRelease k).rse = k.rse := rfl
@[simp] theorem forcedRelease_det : (forcedRelease k).det = 0 := rfl
@[simp] theorem forcedRelease_phase : (forcedRelease k).phase = .idle := rfl

/-- The release policy in phase `Idle`: only the read counter moves (R128). -/
theorem autoRelease_idle (c : Config) (v : Byte) (h : k.phase = .idle) :
    autoRelease c v k = { k with rse := min (k.rse + 1) c.backupReads } := by
  simp [autoRelease, countRead, h]

/-- The release policy after a press: the read counter moves, a detection is counted, and either count reaching its threshold
releases everything (R128). -/
theorem autoRelease_pressed (c : Config) (v : Byte) (h : k.phase = .pressedRecently) :
    autoRelease c v k =
      if c.detCount ≤ k.det + (if v ≠ 0xFF ∧ min (k.rse + 1) c.backupReads ≤ c.detWindow then 1 else 0) ∨
          c.backupReads ≤ k.rse + 1 then
        forcedRelease { k with rse := min (k.rse + 1) c.backupReads }
      else
        { k with
          rse := min (k.rse + 1) c.backupReads
          det := k.det + (if v ≠ 0xFF ∧ min (k.rse + 1) c.backupReads ≤ c.detWindow then 1 else 0) } := by
  have hb : c.backupReads ≤ min (k.rse + 1) c.backupReads ↔ c.backupReads ≤ k.rse + 1 := by omega
  unfold autoRelease countDetection countRead
  simp only [h]
  by_cases hd : v ≠ 0xFF ∧ min (k.rse + 1) c.backupReads ≤ c.detWindow
  · simp only [if_pos hd, hb]
    by_cases h1 : c.detCount ≤ k.det + 1
    · simp [h1, forcedRelease]
    · by_cases h2 : c.backupReads ≤ k.rse + 1 <;> simp [h1, h2, forcedRelease]
  · simp only [if_neg hd, hb, Nat.add_zero]
    by_cases h1 : c.detCount ≤ k.det
    · simp [h1, forcedRelease]
    · by_cases h2 : c.backupReads ≤ k.rse + 1 <;> simp [h1, h2, forcedRelease]

/-- All an instruction can do: each is one of the rules of 40_bus.md, 41_serial.md and 42_keyboard.md, with its operands. -/
theorem exec_cases {i : Instr} (h : exec i s = .next t) :
    (∃ v, t = s.answer v) ∨ t = s.acknowledge ∨
    (∃ a d, i = .wrRam a d ∧ t = ramWrite Config.standard a d s) ∨
    (∃ a d, i = .wrVid a d ∧ t = videoWrite Config.standard a d s) ∨
    ((∃ a, i = .rdSerNatRxdata a ∨ i = .rdSerLegRxdata a) ∧ t = serialRxRead Config.standard s) ∨
    (∃ a d, (i = .wrSerNatControl a d ∨ i = .wrSerLegControl a d) ∧ t = serialControlWrite d s) ∨
    (∃ a d, (i = .wrSerNatTxdata a d ∨ i = .wrSerLegTxdata a d) ∧ t = serialTxWrite d s) ∨
    (∃ a, i = .rdKbd a ∧ t = kbdRead Config.standard s) ∨
    (∃ a d, i = .wrKbd a d ∧ t = kbdWrite Config.standard d s) := by
  cases i <;> injection h with h <;> subst h
  case wrRam a d => exact .inr (.inr (.inl ⟨a, d, rfl, rfl⟩))
  case wrVid a d => exact .inr (.inr (.inr (.inl ⟨a, d, rfl, rfl⟩)))
  case rdSerNatRxdata a => exact .inr (.inr (.inr (.inr (.inl ⟨⟨a, .inl rfl⟩, rfl⟩))))
  case rdSerLegRxdata a => exact .inr (.inr (.inr (.inr (.inl ⟨⟨a, .inr rfl⟩, rfl⟩))))
  case wrSerNatControl a d => exact .inr (.inr (.inr (.inr (.inr (.inl ⟨a, d, .inl rfl, rfl⟩)))))
  case wrSerLegControl a d => exact .inr (.inr (.inr (.inr (.inr (.inl ⟨a, d, .inr rfl, rfl⟩)))))
  case wrSerNatTxdata a d => exact .inr (.inr (.inr (.inr (.inr (.inr (.inl ⟨a, d, .inl rfl, rfl⟩))))))
  case wrSerLegTxdata a d => exact .inr (.inr (.inr (.inr (.inr (.inr (.inl ⟨a, d, .inr rfl, rfl⟩))))))
  case rdKbd a => exact .inr (.inr (.inr (.inr (.inr (.inr (.inr (.inl ⟨a, rfl, rfl⟩)))))))
  case wrKbd a d => exact .inr (.inr (.inr (.inr (.inr (.inr (.inr (.inr ⟨a, d, rfl, rfl⟩)))))))
  all_goals first
    | exact .inl ⟨_, rfl⟩
    | exact .inr (.inl rfl)

end Sys2Proof.Machine
end

