-- ==== Sys2Proof/Laws/PerInstr.lean ====
section
/-! SUPPORT. The family Encoding, one lemma per instruction: the word of a well-formed instruction is selected by a row of the
opcode table, and that row reads the instruction back from the word's fields. (That the decoder, which takes the FIRST row a word
selects, reads it back is an obligation: it needs that no word selects two rows.) -/

namespace Sys2Proof.Laws.Encoding

open Sys2Proof

/-- The encoded word of `i` is selected by some row of the table, which builds `i` from the word. -/
def Statement (i : Instr) : Prop :=
  i.wellFormed = true → ∃ r ∈ opcodeTable, r.selects (encode i) = true ∧ r.build (wordAddr (encode i)) (wordData (encode i)) = i

/-- A statement from the row's number in the table. -/
theorem of_row {i : Instr} (n : Nat) {r : OpcodeRow} (hr : opcodeTable[n]? = some r)
    (h : i.wellFormed = true → encode i &&& r.mask = r.pattern)
    (hb : r.build (wordAddr (encode i)) (wordData (encode i)) = i) : Statement i :=
  fun hi => ⟨r, List.mem_of_getElem? hr, by simp [OpcodeRow.selects, h hi], hb⟩

theorem rdRam (a : Addr) : Statement (.rdRam a) := by
  refine of_row 0 rfl (fun h => ?_) (by simp [encode])
  simp only [Instr.wellFormed, inBlock_iff] at h
  exact block_selects false a 0 23 (by decide) (by simp; omega)

theorem rdRomA (a : Addr) : Statement (.rdRomA a) := by
  refine of_row 1 rfl (fun h => ?_) (by simp [encode])
  simp only [Instr.wellFormed, inBlock_iff] at h
  exact block_selects false a 0 21 (by decide) (by simp; omega)

theorem rdRomMidF100 (a : Addr) : Statement (.rdRomMidF100 a) := by
  refine of_row 2 rfl (fun h => ?_) (by simp [encode])
  simp only [Instr.wellFormed, inBlock_iff] at h
  exact block_selects false a 0 16 (by decide) (by simp; omega)

theorem rdRomMidF200 (a : Addr) : Statement (.rdRomMidF200 a) := by
  refine of_row 3 rfl (fun h => ?_) (by simp [encode])
  simp only [Instr.wellFormed, inBlock_iff] at h
  exact block_selects false a 0 17 (by decide) (by simp; omega)

theorem rdRomMidF400 (a : Addr) : Statement (.rdRomMidF400 a) := by
  refine of_row 4 rfl (fun h => ?_) (by simp [encode])
  simp only [Instr.wellFormed, inBlock_iff] at h
  exact block_selects false a 0 18 (by decide) (by simp; omega)

theorem rdRomKlo (a : Addr) : Statement (.rdRomKlo a) := by
  refine of_row 5 rfl (fun h => ?_) (by simp [encode])
  simp only [Instr.wellFormed, inBlock_iff] at h
  exact block_selects false a 0 18 (by decide) (by simp; omega)

theorem rdRomKhiFD00 (a : Addr) : Statement (.rdRomKhiFD00 a) := by
  refine of_row 6 rfl (fun h => ?_) (by simp [encode])
  simp only [Instr.wellFormed, inBlock_iff] at h
  exact block_selects false a 0 16 (by decide) (by simp; omega)

theorem rdRomKhiFE00 (a : Addr) : Statement (.rdRomKhiFE00 a) := by
  refine of_row 7 rfl (fun h => ?_) (by simp [encode])
  simp only [Instr.wellFormed, inBlock_iff] at h
  exact block_selects false a 0 17 (by decide) (by simp; omega)

theorem rdVid (a : Addr) : Statement (.rdVid a) := by
  refine of_row 8 rfl (fun h => ?_) (by simp [encode])
  simp only [Instr.wellFormed, inBlock_iff] at h
  exact block_selects false a 0 19 (by decide) (by simp; omega)

theorem rdKbd (a : Addr) : Statement (.rdKbd a) := by
  refine of_row 9 rfl (fun h => ?_) (by simp [encode])
  simp only [Instr.wellFormed, inBlock_iff] at h
  exact block_selects false a 0 16 (by decide) (by simp; omega)

theorem rdSerNatStatus (a : Addr) : Statement (.rdSerNatStatus a) := by
  refine of_row 10 rfl (fun h => ?_) (by simp [encode])
  simp only [Instr.wellFormed, Bool.and_eq_true, inBlock_iff, Bool.not_eq_true'] at h
  exact serial_selects false a 0 (p := 0x0FC0000) (b := false) (by simp; omega) h.2

theorem rdSerNatRxdata (a : Addr) : Statement (.rdSerNatRxdata a) := by
  refine of_row 11 rfl (fun h => ?_) (by simp [encode])
  simp only [Instr.wellFormed, Bool.and_eq_true, inBlock_iff] at h
  exact serial_selects false a 0 (p := 0x0FC0000) (b := true) (by simp; omega) h.2

theorem rdSerLegStatus (a : Addr) : Statement (.rdSerLegStatus a) := by
  refine of_row 12 rfl (fun h => ?_) (by simp [encode])
  simp only [Instr.wellFormed, Bool.and_eq_true, inBlock_iff, Bool.not_eq_true'] at h
  exact serial_selects false a 0 (p := 0x0F00000) (b := false) (by simp; omega) h.2

theorem rdSerLegRxdata (a : Addr) : Statement (.rdSerLegRxdata a) := by
  refine of_row 13 rfl (fun h => ?_) (by simp [encode])
  simp only [Instr.wellFormed, Bool.and_eq_true, inBlock_iff] at h
  exact serial_selects false a 0 (p := 0x0F00000) (b := true) (by simp; omega) h.2

theorem rdUnmapped8000 (a : Addr) : Statement (.rdUnmapped8000 a) := by
  refine of_row 14 rfl (fun h => ?_) (by simp [encode])
  simp only [Instr.wellFormed, inBlock_iff] at h
  exact block_selects false a 0 21 (by decide) (by simp; omega)

theorem rdUnmappedC000 (a : Addr) : Statement (.rdUnmappedC000 a) := by
  refine of_row 15 rfl (fun h => ?_) (by simp [encode])
  simp only [Instr.wellFormed, inBlock_iff] at h
  exact block_selects false a 0 20 (by decide) (by simp; omega)

theorem rdUnmappedD800 (a : Addr) : Statement (.rdUnmappedD800 a) := by
  refine of_row 16 rfl (fun h => ?_) (by simp [encode])
  simp only [Instr.wellFormed, inBlock_iff] at h
  exact block_selects false a 0 18 (by decide) (by simp; omega)

theorem rdUnmappedDC00 (a : Addr) : Statement (.rdUnmappedDC00 a) := by
  refine of_row 17 rfl (fun h => ?_) (by simp [encode])
  simp only [Instr.wellFormed, inBlock_iff] at h
  exact block_selects false a 0 17 (by decide) (by simp; omega)

theorem rdUnmappedDE00 (a : Addr) : Statement (.rdUnmappedDE00 a) := by
  refine of_row 18 rfl (fun h => ?_) (by simp [encode])
  simp only [Instr.wellFormed, inBlock_iff] at h
  exact block_selects false a 0 16 (by decide) (by simp; omega)

theorem rdUnmappedE000 (a : Addr) : Statement (.rdUnmappedE000 a) := by
  refine of_row 19 rfl (fun h => ?_) (by simp [encode])
  simp only [Instr.wellFormed, inBlock_iff] at h
  exact block_selects false a 0 20 (by decide) (by simp; omega)

theorem wrRam (a : Addr) (d : Byte) : Statement (.wrRam a d) := by
  refine of_row 20 rfl (fun h => ?_) (by simp [encode])
  simp only [Instr.wellFormed, inBlock_iff] at h
  exact block_selects true a d 23 (by decide) (by simp; omega)

theorem wrRomA (a : Addr) (d : Byte) : Statement (.wrRomA a d) := by
  refine of_row 21 rfl (fun h => ?_) (by simp [encode])
  simp only [Instr.wellFormed, inBlock_iff] at h
  exact block_selects true a d 21 (by decide) (by simp; omega)

theorem wrRomMidF100 (a : Addr) (d : Byte) : Statement (.wrRomMidF100 a d) := by
  refine of_row 22 rfl (fun h => ?_) (by simp [encode])
  simp only [Instr.wellFormed, inBlock_iff] at h
  exact block_selects true a d 16 (by decide) (by simp; omega)

theorem wrRomMidF200 (a : Addr) (d : Byte) : Statement (.wrRomMidF200 a d) := by
  refine of_row 23 rfl (fun h => ?_) (by simp [encode])
  simp only [Instr.wellFormed, inBlock_iff] at h
  exact block_selects true a d 17 (by decide) (by simp; omega)

theorem wrRomMidF400 (a : Addr) (d : Byte) : Statement (.wrRomMidF400 a d) := by
  refine of_row 24 rfl (fun h => ?_) (by simp [encode])
  simp only [Instr.wellFormed, inBlock_iff] at h
  exact block_selects true a d 18 (by decide) (by simp; omega)

theorem wrRomKlo (a : Addr) (d : Byte) : Statement (.wrRomKlo a d) := by
  refine of_row 25 rfl (fun h => ?_) (by simp [encode])
  simp only [Instr.wellFormed, inBlock_iff] at h
  exact block_selects true a d 18 (by decide) (by simp; omega)

theorem wrRomKhiFD00 (a : Addr) (d : Byte) : Statement (.wrRomKhiFD00 a d) := by
  refine of_row 26 rfl (fun h => ?_) (by simp [encode])
  simp only [Instr.wellFormed, inBlock_iff] at h
  exact block_selects true a d 16 (by decide) (by simp; omega)

theorem wrRomKhiFE00 (a : Addr) (d : Byte) : Statement (.wrRomKhiFE00 a d) := by
  refine of_row 27 rfl (fun h => ?_) (by simp [encode])
  simp only [Instr.wellFormed, inBlock_iff] at h
  exact block_selects true a d 17 (by decide) (by simp; omega)

theorem wrVid (a : Addr) (d : Byte) : Statement (.wrVid a d) := by
  refine of_row 28 rfl (fun h => ?_) (by simp [encode])
  simp only [Instr.wellFormed, inBlock_iff] at h
  exact block_selects true a d 19 (by decide) (by simp; omega)

theorem wrKbd (a : Addr) (d : Byte) : Statement (.wrKbd a d) := by
  refine of_row 29 rfl (fun h => ?_) (by simp [encode])
  simp only [Instr.wellFormed, inBlock_iff] at h
  exact block_selects true a d 16 (by decide) (by simp; omega)

theorem wrUnused (a : Addr) (d : Byte) : Statement (.wrUnused a d) := by
  refine of_row 30 rfl (fun h => ?_) (by simp [encode])
  simp only [Instr.wellFormed, inBlock_iff] at h
  exact block_selects true a d 8 (by decide) (by simp; omega)

theorem wrSerNatControl (a : Addr) (d : Byte) : Statement (.wrSerNatControl a d) := by
  refine of_row 31 rfl (fun h => ?_) (by simp [encode])
  simp only [Instr.wellFormed, Bool.and_eq_true, inBlock_iff, Bool.not_eq_true'] at h
  exact serial_selects true a d (p := 0x1FC0000) (b := false) (by simp; omega) h.2

theorem wrSerNatTxdata (a : Addr) (d : Byte) : Statement (.wrSerNatTxdata a d) := by
  refine of_row 32 rfl (fun h => ?_) (by simp [encode])
  simp only [Instr.wellFormed, Bool.and_eq_true, inBlock_iff] at h
  exact serial_selects true a d (p := 0x1FC0000) (b := true) (by simp; omega) h.2

theorem wrSerLegControl (a : Addr) (d : Byte) : Statement (.wrSerLegControl a d) := by
  refine of_row 33 rfl (fun h => ?_) (by simp [encode])
  simp only [Instr.wellFormed, Bool.and_eq_true, inBlock_iff, Bool.not_eq_true'] at h
  exact serial_selects true a d (p := 0x1F00000) (b := false) (by simp; omega) h.2

theorem wrSerLegTxdata (a : Addr) (d : Byte) : Statement (.wrSerLegTxdata a d) := by
  refine of_row 34 rfl (fun h => ?_) (by simp [encode])
  simp only [Instr.wellFormed, Bool.and_eq_true, inBlock_iff] at h
  exact serial_selects true a d (p := 0x1F00000) (b := true) (by simp; omega) h.2

theorem wrUnmapped8000 (a : Addr) (d : Byte) : Statement (.wrUnmapped8000 a d) := by
  refine of_row 35 rfl (fun h => ?_) (by simp [encode])
  simp only [Instr.wellFormed, inBlock_iff] at h
  exact block_selects true a d 21 (by decide) (by simp; omega)

theorem wrUnmappedC000 (a : Addr) (d : Byte) : Statement (.wrUnmappedC000 a d) := by
  refine of_row 36 rfl (fun h => ?_) (by simp [encode])
  simp only [Instr.wellFormed, inBlock_iff] at h
  exact block_selects true a d 20 (by decide) (by simp; omega)

theorem wrUnmappedD800 (a : Addr) (d : Byte) : Statement (.wrUnmappedD800 a d) := by
  refine of_row 37 rfl (fun h => ?_) (by simp [encode])
  simp only [Instr.wellFormed, inBlock_iff] at h
  exact block_selects true a d 18 (by decide) (by simp; omega)

theorem wrUnmappedDC00 (a : Addr) (d : Byte) : Statement (.wrUnmappedDC00 a d) := by
  refine of_row 38 rfl (fun h => ?_) (by simp [encode])
  simp only [Instr.wellFormed, inBlock_iff] at h
  exact block_selects true a d 17 (by decide) (by simp; omega)

theorem wrUnmappedDE00 (a : Addr) (d : Byte) : Statement (.wrUnmappedDE00 a d) := by
  refine of_row 39 rfl (fun h => ?_) (by simp [encode])
  simp only [Instr.wellFormed, inBlock_iff] at h
  exact block_selects true a d 16 (by decide) (by simp; omega)

theorem wrUnmappedE001 (a : Addr) (d : Byte) : Statement (.wrUnmappedE001 a d) := by
  refine of_row 40 rfl (fun h => ?_) (by simp [encode])
  simp only [Instr.wellFormed, inBlock_iff] at h
  exact block_selects true a d 8 (by decide) (by simp; omega)

theorem wrUnmappedE002 (a : Addr) (d : Byte) : Statement (.wrUnmappedE002 a d) := by
  refine of_row 41 rfl (fun h => ?_) (by simp [encode])
  simp only [Instr.wellFormed, inBlock_iff] at h
  exact block_selects true a d 9 (by decide) (by simp; omega)

theorem wrUnmappedE004 (a : Addr) (d : Byte) : Statement (.wrUnmappedE004 a d) := by
  refine of_row 42 rfl (fun h => ?_) (by simp [encode])
  simp only [Instr.wellFormed, inBlock_iff] at h
  exact block_selects true a d 10 (by decide) (by simp; omega)

theorem wrUnmappedE008 (a : Addr) (d : Byte) : Statement (.wrUnmappedE008 a d) := by
  refine of_row 43 rfl (fun h => ?_) (by simp [encode])
  simp only [Instr.wellFormed, inBlock_iff] at h
  exact block_selects true a d 11 (by decide) (by simp; omega)

theorem wrUnmappedE010 (a : Addr) (d : Byte) : Statement (.wrUnmappedE010 a d) := by
  refine of_row 44 rfl (fun h => ?_) (by simp [encode])
  simp only [Instr.wellFormed, inBlock_iff] at h
  exact block_selects true a d 12 (by decide) (by simp; omega)

theorem wrUnmappedE020 (a : Addr) (d : Byte) : Statement (.wrUnmappedE020 a d) := by
  refine of_row 45 rfl (fun h => ?_) (by simp [encode])
  simp only [Instr.wellFormed, inBlock_iff] at h
  exact block_selects true a d 13 (by decide) (by simp; omega)

theorem wrUnmappedE040 (a : Addr) (d : Byte) : Statement (.wrUnmappedE040 a d) := by
  refine of_row 46 rfl (fun h => ?_) (by simp [encode])
  simp only [Instr.wellFormed, inBlock_iff] at h
  exact block_selects true a d 14 (by decide) (by simp; omega)

theorem wrUnmappedE080 (a : Addr) (d : Byte) : Statement (.wrUnmappedE080 a d) := by
  refine of_row 47 rfl (fun h => ?_) (by simp [encode])
  simp only [Instr.wellFormed, inBlock_iff] at h
  exact block_selects true a d 15 (by decide) (by simp; omega)

theorem wrUnmappedE100 (a : Addr) (d : Byte) : Statement (.wrUnmappedE100 a d) := by
  refine of_row 48 rfl (fun h => ?_) (by simp [encode])
  simp only [Instr.wellFormed, inBlock_iff] at h
  exact block_selects true a d 16 (by decide) (by simp; omega)

theorem wrUnmappedE200 (a : Addr) (d : Byte) : Statement (.wrUnmappedE200 a d) := by
  refine of_row 49 rfl (fun h => ?_) (by simp [encode])
  simp only [Instr.wellFormed, inBlock_iff] at h
  exact block_selects true a d 17 (by decide) (by simp; omega)

theorem wrUnmappedE400 (a : Addr) (d : Byte) : Statement (.wrUnmappedE400 a d) := by
  refine of_row 50 rfl (fun h => ?_) (by simp [encode])
  simp only [Instr.wellFormed, inBlock_iff] at h
  exact block_selects true a d 18 (by decide) (by simp; omega)

theorem wrUnmappedE800 (a : Addr) (d : Byte) : Statement (.wrUnmappedE800 a d) := by
  refine of_row 51 rfl (fun h => ?_) (by simp [encode])
  simp only [Instr.wellFormed, inBlock_iff] at h
  exact block_selects true a d 19 (by decide) (by simp; omega)

end Sys2Proof.Laws.Encoding
end

