-- ==== Sys2Proof/Laws/Table.lean ====
section
/-! SUPPORT. What the regenerated opcode table holds: the blocks of a set of addresses cover it once and nothing else, and how many
rows of each part of the table a word selects. -/

namespace Sys2Proof.Machine

open Sys2Proof

section Split

variable {covers avoids : Window → Bool}

/-- A set of addresses given by what covers and what avoids it: a covered window has members only, an avoided one none. -/
structure Splits (covers avoids : Window → Bool) : Prop where
  covered : ∀ v a, covers v = true → v.lo ≤ a → a ≤ v.hi → covers ⟨a, a⟩ = true
  avoided : ∀ v a, avoids v = true → v.lo ≤ a → a ≤ v.hi → covers ⟨a, a⟩ = false

/-- The blocks of a split lie inside it and are aligned to their size. -/
theorem splitBlock_aligned (bits start : Nat) (h : start % 2 ^ bits = 0) :
    ∀ b ∈ splitBlock covers avoids bits start,
      b.start % 2 ^ b.bits = 0 ∧ b.bits ≤ bits ∧ start ≤ b.start ∧ b.start + 2 ^ b.bits ≤ start + 2 ^ bits := by
  induction bits generalizing start with
  | zero =>
    intro b hb
    unfold splitBlock at hb
    split at hb
    · rw [List.mem_singleton.1 hb]
      simp [Nat.mod_one]
    · cases hb
  | succ n ih =>
    intro b hb
    have hp : 2 ^ (n + 1) = 2 * 2 ^ n := by rw [Nat.pow_succ]; omega
    unfold splitBlock at hb
    split at hb
    · rw [List.mem_singleton.1 hb]
      exact ⟨h, le_rfl, le_rfl, le_rfl⟩
    · split at hb
      · cases hb
      · have h0 : start % 2 ^ n = 0 := by
          rw [hp] at h
          exact Nat.mod_eq_zero_of_dvd ((Dvd.intro_left 2 rfl).trans (Nat.dvd_of_mod_eq_zero h))
        rcases List.mem_append.1 hb with hb | hb
        · obtain ⟨h1, h2, h3, h4⟩ := ih start h0 b hb
          exact ⟨h1, by omega, h3, by omega⟩
        · obtain ⟨h1, h2, h3, h4⟩ := ih (start + 2 ^ n) (by rw [Nat.add_mod_right]; exact h0) b hb
          exact ⟨h1, by omega, by omega, by omega⟩

/-- Each address of the set lies in exactly one block of its split, every other address in none. -/
theorem splitBlock_count (hs : Splits covers avoids) (bits start a : Nat) :
    (splitBlock covers avoids bits start).countP (fun b => decide (b.window.lo ≤ a ∧ a ≤ b.window.hi)) =
      if start ≤ a ∧ a < start + 2 ^ bits ∧ covers ⟨a, a⟩ = true then 1 else 0 := by
  induction bits generalizing start with
  | zero =>
    by_cases ha : start = a
    · subst ha
      by_cases hc : covers ⟨start, start⟩ = true <;> simp [splitBlock, hc, Block.window]
    · have : ¬ (start ≤ a ∧ a < start + 2 ^ 0 ∧ covers ⟨a, a⟩ = true) := by omega
      rw [if_neg this]
      unfold splitBlock
      split
      · simp [Block.window]
        omega
      · rfl
  | succ n ih =>
    have hp : 2 ^ (n + 1) = 2 ^ n + 2 ^ n := by rw [Nat.pow_succ]; omega
    have h1 : 0 < 2 ^ n := Nat.two_pow_pos n
    unfold splitBlock
    split
    · rename_i hc
      by_cases ha : start ≤ a ∧ a < start + 2 ^ (n + 1)
      · rw [if_pos ⟨ha.1, ha.2, hs.covered _ a hc ha.1 (by simp only; omega)⟩, List.countP_singleton, if_pos]
        exact decide_eq_true (by simp only [Block.window]; omega)
      · rw [if_neg fun h => ha ⟨h.1, h.2.1⟩, List.countP_singleton, if_neg]
        exact fun h => ha (by have := of_decide_eq_true h; simp only [Block.window] at this; omega)
    · split
      · rename_i hv
        rw [if_neg]
        · rfl
        · rintro ⟨h2, h3, h4⟩
          rw [hs.avoided _ a hv h2 (by simp only; omega)] at h4
          cases h4
      · rw [List.countP_append, ih, ih]
        by_cases hc : covers ⟨a, a⟩ = true
        · simp only [hc, and_true]
          split_ifs <;> omega
        · simp [hc]

end Split

theorem within_iff {v w : Window} : Window.within v w = true ↔ w.lo ≤ v.lo ∧ v.hi ≤ w.hi := by simp [Window.within]

theorem apart_iff {v w : Window} : Window.apart v w = true ↔ v.hi < w.lo ∨ w.hi < v.lo := by simp [Window.apart]

theorem window_splits (w : Window) : Splits (fun v => Window.within v w) (fun v => Window.apart v w) where
  covered v a h h1 h2 := by rw [within_iff] at *; simp only; omega
  avoided v a h h1 h2 := by
    rw [apart_iff] at h
    rw [← Bool.not_eq_true, within_iff]
    simp only
    omega

theorem unmapped_splits (ws : List Window) :
    Splits (fun v => ws.all (fun w => Window.apart v w)) (fun v => ws.any (fun w => Window.within v w)) where
  covered v a h h1 h2 := by
    rw [List.all_eq_true] at *
    intro w hw
    have := apart_iff.1 (h w hw)
    exact apart_iff.2 (by simp only; omega)
  avoided v a h h1 h2 := by
    obtain ⟨w, hw, h⟩ := List.any_eq_true.1 h
    rw [← Bool.not_eq_true, List.all_eq_true]
    intro hall
    have := apart_iff.1 (hall w hw)
    have := within_iff.1 h
    simp only at *
    omega

/-- What a block of the table is: aligned to its size and inside the address space. -/
structure Block.Ok (b : Block) : Prop where
  aligned : b.start % 2 ^ b.bits = 0
  bits : b.bits ≤ 16
  inSpace : b.start + 2 ^ b.bits ≤ 2 ^ 16

theorem ok_of_split {covers avoids : Window → Bool} {b : Block} (h : b ∈ splitBlock covers avoids 16 0) : b.Ok := by
  obtain ⟨h1, h2, -, h4⟩ := splitBlock_aligned 16 0 (by decide) b h
  exact ⟨h1, h2, by simpa using h4⟩

theorem windowBlocks_ok {w : Window} : ∀ b ∈ windowBlocks w, b.Ok := fun _ h => ok_of_split h

theorem unmappedBlocks_ok {ws : List Window} : ∀ b ∈ unmappedBlocks ws, b.Ok := fun _ h => ok_of_split h

/-- An address lies in exactly one block of a window that holds it, and in none of any other (R64). -/
theorem windowBlocks_count (w : Window) (a : Addr) :
    (windowBlocks w).countP (fun b => decide (b.window.Contains a)) = if w.Contains a then 1 else 0 := by
  have h := splitBlock_count (window_splits w) 16 0 a.toNat
  have := a.isLt
  refine h.trans ?_
  simp only [within_iff]
  congr 1
  simp only [eq_iff_iff, Window.Contains]
  omega

/-- An address no window owns lies in exactly one block of the unmapped ranges, any other in none (R64). -/
theorem unmappedBlocks_count (ws : List Window) (a : Addr) :
    (unmappedBlocks ws).countP (fun b => decide (b.window.Contains a)) = if ∀ w ∈ ws, ¬ w.Contains a then 1 else 0 := by
  have h := splitBlock_count (unmapped_splits ws) 16 0 a.toNat
  have := a.isLt
  refine h.trans ?_
  simp only [List.all_eq_true, apart_iff]
  congr 1
  simp only [eq_iff_iff, Window.Contains]
  constructor
  · rintro ⟨-, -, h⟩ w hw
    have := h w hw
    omega
  · intro h
    refine ⟨by omega, by omega, fun w hw => ?_⟩
    have := h w hw
    omega

/-! ## Which rows a word selects -/

/-- A word selects a block's row exactly when its direction is the row's and its address lies in the block (R64). -/
theorem blockRow_selects {b : Block} (hb : b.Ok) (write : Bool) (name : String) (suffixed : Bool) (rule : BusRule) (t : BusWord) :
    (blockRow write name suffixed rule b).selects t = true ↔ wordWrite t = write ∧ b.window.Contains (wordAddr t) := by
  obtain ⟨start, bits⟩ := b
  obtain ⟨h1, h2, h3⟩ := hb
  have hw : wordWrite t = write ↔ (wordWrite t).toNat = write.toNat := by cases wordWrite t <;> cases write <;> decide
  have ht := t.isLt
  have hwl : write.toNat < 2 := by cases write <;> decide
  simp only [blockRow, TableRow.selects, beq_iff_eq, and_highMask, Window.Contains, Block.window, wordAddr_toNat]
  rw [hw, wordWrite_toNat, ← BitVec.toNat_inj, BitVec.toNat_shiftLeft, BitVec.toNat_ushiftRight, Nat.shiftLeft_eq,
    Nat.shiftRight_eq_div_pow, BitVec.toNat_ofNat]
  simp only at h1 h2 h3
  generalize t.toNat = n at *
  generalize write.toNat = d at *
  interval_cases bits <;> omega

/-- Bit 0 of a word's address is bit 8 of the word. -/
theorem wordAddr_bit (t : BusWord) : (wordAddr t).getLsbD 0 = t.getLsbD 8 := by simp [wordAddr]

theorem bit8_getLsbD (y : Bool) (i : Nat) : (if y then 0x100 else 0 : BusWord).getLsbD i = (y && decide (i = 8)) := by
  have h : (0x100 : BusWord) = BitVec.twoPow 25 8 := by decide
  cases y
  · simp
  · rw [if_pos rfl, h, BitVec.getLsbD_twoPow]
    simp [eq_comm]

/-- Setting bit 8 of words that have it clear keeps them apart and shows the bit. -/
theorem or_bit8_inj {x p : BusWord} (hx : x.getLsbD 8 = false) (hp : p.getLsbD 8 = false) (y z : Bool) :
    (x ||| if y then 0x100 else 0) = (p ||| if z then 0x100 else 0) ↔ x = p ∧ y = z := by
  constructor
  · intro h
    have hbit : ∀ i, (x.getLsbD i || (y && decide (i = 8))) = (p.getLsbD i || (z && decide (i = 8))) := fun i => by
      rw [← bit8_getLsbD, ← bit8_getLsbD, ← BitVec.getLsbD_or, ← BitVec.getLsbD_or, h]
    refine ⟨BitVec.eq_of_getLsbD_eq fun i _ => ?_, by simpa only [hx, hp, Bool.false_or, decide_true, Bool.and_true] using hbit 8⟩
    by_cases h8 : i = 8
    · rw [h8, hx, hp]
    · simpa only [h8, decide_false, Bool.and_false, Bool.or_false] using hbit i
  · rintro ⟨rfl, rfl⟩
    rfl

/-- A word selects a serial row exactly when it selects the block's row and its `A[0]` is the row's (R64). -/
theorem serialRow_selects {b : Block} (hb : b.Ok) (write : Bool) (name : String) (suffixed : Bool) (rule : BusRule) {bit : Bool}
    (hbit : bit ∈ b.bitValues) (t : BusWord) :
    (serialRow write name suffixed rule b bit).selects t = true ↔
      (wordWrite t = write ∧ b.window.Contains (wordAddr t)) ∧ (wordAddr t).getLsbD 0 = bit := by
  rw [← blockRow_selects hb write name suffixed rule t, wordAddr_bit]
  simp only [TableRow.selects, beq_iff_eq, serialRow, blockRow]
  obtain ⟨start, bits⟩ := b
  obtain ⟨h1, h2, h3⟩ := hb
  have hs : (BitVec.ofNat 25 (write.toNat * 2 ^ 24 + start * 2 ^ 8)).getLsbD 8 = start.testBit 0 := by
    rw [BitVec.getLsbD_ofNat, Nat.testBit_eq_decide_div_mod_eq, Nat.testBit_eq_decide_div_mod_eq]
    simp
    omega
  by_cases h0 : bits = 0
  · subst h0
    have hb : bit = start.testBit 0 := by simpa [Block.bitValues] using hbit
    subst hb
    have hm : (BitVec.allOnes 25 <<< (0 + 8) ||| 0x100 : BusWord) = BitVec.allOnes 25 <<< (0 + 8) := by decide
    have hp : (BitVec.ofNat 25 (write.toNat * 2 ^ 24 + start * 2 ^ 8) ||| if start.testBit 0 then 0x100 else 0) =
        BitVec.ofNat 25 (write.toNat * 2 ^ 24 + start * 2 ^ 8) := by
      refine BitVec.eq_of_getLsbD_eq fun i _ => ?_
      rw [BitVec.getLsbD_or, bit8_getLsbD, ← hs]
      by_cases h8 : i = 8
      · simp only [h8, decide_true, Bool.and_true, Bool.or_self]
      · simp only [h8, decide_false, Bool.and_false, Bool.or_false]
    rw [hm, hp, iff_self_and]
    intro h
    rw [← hs, ← h, BitVec.getLsbD_and, show (BitVec.allOnes 25 <<< (0 + 8)).getLsbD 8 = true by decide, Bool.and_true]
  · have hm : (BitVec.allOnes 25 <<< (bits + 8)).getLsbD 8 = false := by
      rw [BitVec.getLsbD_shiftLeft]
      simp only [show (8 < bits + 8) by omega, decide_true, Bool.not_true, Bool.and_false, Bool.false_and]
    have h8 : (0x100 : BusWord) = BitVec.twoPow 25 8 := by decide
    rw [BitVec.and_or_distrib_left, show t &&& 0x100 = if t.getLsbD 8 then 0x100 else 0 by rw [h8, BitVec.and_twoPow]; rfl]
    refine or_bit8_inj (by rw [BitVec.getLsbD_and, hm, Bool.and_false]) ?_ _ _
    rw [hs, Nat.testBit_zero, decide_eq_false_iff_not]
    simp only at h1
    interval_cases bits <;> omega

/-! ## What each part of the table holds -/

/-- The rows of a split, one a block: a word of the row's direction selects as many as blocks hold its address. -/
theorem blockRows_count {l : List Block} (hl : ∀ b ∈ l, b.Ok) (write : Bool) (name : String) (suffixed : Bool) (rule : BusRule)
    (t : BusWord) :
    (l.map (blockRow write name suffixed rule)).countP (fun r => r.selects t) =
      if wordWrite t = write then l.countP (fun b => decide (b.window.Contains (wordAddr t))) else 0 := by
  rw [List.countP_map]
  split
  · rename_i hw
    refine List.countP_congr fun b hb => ?_
    rw [Function.comp_apply, blockRow_selects (hl b hb), decide_eq_true_iff]
    exact and_iff_right hw
  · rename_i hw
    refine List.countP_eq_zero.2 fun b hb => ?_
    rw [Function.comp_apply, blockRow_selects (hl b hb)]
    exact fun h => hw h.1

/-- A word selects one row of a window's rows where its direction is theirs and the window holds its address, else none. -/
theorem windowRows_count (write : Bool) (name : String) (w : Window) (rule : BusRule) (t : BusWord) :
    (windowRows write name w rule).countP (fun r => r.selects t) =
      if wordWrite t = write ∧ w.Contains (wordAddr t) then 1 else 0 := by
  rw [windowRows, blockRows_count windowBlocks_ok, windowBlocks_count]
  by_cases h : wordWrite t = write <;> simp [h]

/-- A word selects one of the unmapped rows where its direction is theirs and no window holds its address, else none. -/
theorem unmappedRows_count (write : Bool) (ws : List Window) (rule : BusRule) (t : BusWord) :
    (unmappedRows write ws rule).countP (fun r => r.selects t) =
      if wordWrite t = write ∧ ∀ w ∈ ws, ¬ w.Contains (wordAddr t) then 1 else 0 := by
  rw [unmappedRows, blockRows_count unmappedBlocks_ok, unmappedBlocks_count]
  by_cases h : wordWrite t = write <;> simp only [h, if_true, if_false, true_and, false_and]

theorem countP_flatMap_indicator {α β : Type} {l : List α} {f : α → List β} {p : β → Bool} {q : α → Bool}
    (h : ∀ a ∈ l, (f a).countP p = if q a then 1 else 0) : (l.flatMap f).countP p = l.countP q := by
  induction l with
  | nil => rfl
  | cons a l ih =>
    rw [List.flatMap_cons, List.countP_append, List.countP_cons, h a (by simp), ih fun b hb => h b (by simp [hb])]
    omega

/-- Of a block's serial rows a word selects one where it selects the block, else none. -/
theorem serialBlock_count {b : Block} (write : Bool) (f : Bool → TableRow) (t : BusWord)
    (hf : ∀ bit ∈ b.bitValues, (f bit).selects t = true ↔
      (wordWrite t = write ∧ b.window.Contains (wordAddr t)) ∧ (wordAddr t).getLsbD 0 = bit) :
    (b.bitValues.map f).countP (fun r => r.selects t) =
      if decide (wordWrite t = write ∧ b.window.Contains (wordAddr t)) then 1 else 0 := by
  rw [List.countP_map]
  have hc : b.bitValues.countP ((fun r => r.selects t) ∘ f) =
      b.bitValues.countP fun bit => decide ((wordWrite t = write ∧ b.window.Contains (wordAddr t)) ∧ (wordAddr t).getLsbD 0 = bit) :=
    List.countP_congr fun bit hbit => by rw [Function.comp_apply, hf bit hbit, decide_eq_true_iff]
  rw [hc]
  by_cases hq : wordWrite t = write ∧ b.window.Contains (wordAddr t)
  · rw [if_pos (decide_eq_true hq), List.countP_congr (q := fun bit => decide ((wordAddr t).getLsbD 0 = bit)) fun bit _ => by
      rw [decide_eq_true_iff, decide_eq_true_iff]; exact and_iff_right hq]
    unfold Block.bitValues
    split
    · rename_i h0
      have ha : (wordAddr t).toNat = b.start := by
        have := hq.2
        simp only [Block.window, Window.Contains, h0] at this
        omega
      rw [List.countP_singleton, if_pos]
      rw [decide_eq_true_iff, BitVec.getLsbD, ha]
    · cases (wordAddr t).getLsbD 0 <;> rfl
  · rw [if_neg fun h => hq (of_decide_eq_true h)]
    exact List.countP_eq_zero.2 fun bit _ h => hq (of_decide_eq_true h).1

/-- A word selects one row of a serial window's rows where its direction is theirs and the window holds its address, else none. -/
theorem serialRows_count (write : Bool) (name : String) (w : Window) (zero one : String × BusRule) (t : BusWord) :
    (serialRows write name w zero one).countP (fun r => r.selects t) =
      if wordWrite t = write ∧ w.Contains (wordAddr t) then 1 else 0 := by
  rw [serialRows, countP_flatMap_indicator fun b hb =>
    serialBlock_count write _ t fun bit hbit =>
      serialRow_selects (windowBlocks_ok b hb) _ _ _ _ hbit t]
  by_cases h : wordWrite t = write
  · simp only [h, true_and]
    exact windowBlocks_count w (wordAddr t)
  · rw [if_neg fun hc => h hc.1]
    exact List.countP_eq_zero.2 fun b _ hb => h (of_decide_eq_true hb).1

theorem windowRows_selects {write : Bool} {name : String} {w : Window} {rule : BusRule} {t : BusWord} {r : TableRow}
    (hr : r ∈ windowRows write name w rule) (hs : r.selects t = true) :
    wordWrite t = write ∧ w.Contains (wordAddr t) ∧ r.rule = rule := by
  have hc := windowRows_count write name w rule t
  have hp : 0 < (windowRows write name w rule).countP (fun r => r.selects t) := List.countP_pos_iff.2 ⟨r, hr, hs⟩
  obtain ⟨b, -, rfl⟩ := List.mem_map.1 hr
  split at hc
  · rename_i h
    exact ⟨h.1, h.2, rfl⟩
  · omega

theorem unmappedRows_selects {write : Bool} {ws : List Window} {rule : BusRule} {t : BusWord} {r : TableRow}
    (hr : r ∈ unmappedRows write ws rule) (hs : r.selects t = true) :
    wordWrite t = write ∧ (∀ w ∈ ws, ¬ w.Contains (wordAddr t)) ∧ r.rule = rule := by
  have hc := unmappedRows_count write ws rule t
  have hp : 0 < (unmappedRows write ws rule).countP (fun r => r.selects t) := List.countP_pos_iff.2 ⟨r, hr, hs⟩
  obtain ⟨b, -, rfl⟩ := List.mem_map.1 hr
  split at hc
  · rename_i h
    exact ⟨h.1, h.2, rfl⟩
  · omega

/-- The row a word selects in a serial window names the rule of the register its window offset selects (40_bus.md R77). -/
theorem serialRows_selects {write : Bool} {name : String} {w : Window} {zero one : String × BusRule} {t : BusWord} {r : TableRow}
    (hr : r ∈ serialRows write name w zero one) (hs : r.selects t = true) :
    wordWrite t = write ∧ w.Contains (wordAddr t) ∧
      r.rule = if ((wordAddr t).toNat - w.lo).testBit 0 then one.2 else zero.2 := by
  have hc := serialRows_count write name w zero one t
  have hp : 0 < (serialRows write name w zero one).countP (fun r => r.selects t) := List.countP_pos_iff.2 ⟨r, hr, hs⟩
  obtain ⟨b, hb, hr⟩ := List.mem_flatMap.1 hr
  obtain ⟨bit, hbit, rfl⟩ := List.mem_map.1 hr
  obtain ⟨⟨h1, -⟩, h3⟩ := (serialRow_selects (windowBlocks_ok b hb) _ _ _ _ hbit t).1 hs
  split at hc
  · rename_i h
    refine ⟨h1, h.2, ?_⟩
    have hlo := h.2.1
    have hoff : ((wordAddr t).toNat - w.lo).testBit 0 = !(bit == w.lo.testBit 0) := by
      rw [← h3, BitVec.getLsbD, Nat.testBit_zero, Nat.testBit_zero, Nat.testBit_zero]
      rcases Nat.mod_two_eq_zero_or_one (wordAddr t).toNat with ha | ha <;>
        rcases Nat.mod_two_eq_zero_or_one w.lo with hl | hl <;>
        simp [ha, hl] <;> omega
    rw [hoff]
    unfold serialRow serialRegister
    cases bit == w.lo.testBit 0 <;> rfl
  · omega

end Sys2Proof.Machine
end

