-- ==== Sys2Proof/Tests/Slice0.lean ====
section
/-! SUPPORT. The model's own tests: ill-formed instructions refused, words of the spec's encodings decoded, one-step vectors of
95_test_vectors.md, and for every obligation with hypotheses a witness that they can be met together. -/

namespace Sys2Proof.Tests

open Sys2Proof Sys2Proof.Machine

/-- A configuration other than the standard one: `KEYMAP` holds its fixed entry only (the convention of 95_test_vectors.md). -/
def config : Config := { Config.standard with keymap := fun k => if k = 0x41 then some ⟨1, 6⟩ else none }

/-- The same with the other policy for an empty Receive Data read (D9). -/
def configAny : Config := { config with rxEmptyRead := .any }

/-- A map with a legacy alias of three addresses that starts at an odd one. -/
def oddAlias : AddressMap := { AddressMap.standard with serLeg := ⟨0xF001, 0xF003⟩ }

/-- The state one step after the word is presented at `s`. -/
def after (t : BusWord) (s : State) : Option State :=
  match step (s.withFetchWord 25 t.toNat) with
  | .next u => some u
  | _ => none

/-- The byte the word's transaction returns at `s`. -/
def reads (t : BusWord) (s : State) : Option Byte := (after t s).bind State.result

/-- Power-on with `q` waiting on the console. -/
def withInput (q : List Byte) : State := { State.reset with inQ := q }

/-- Key 'A' pressed at power-on with only row 1 selected, after `rse` reads and `det` detections. -/
def pressedA (rse det : Nat) : State :=
  { State.reset with
    kbd := { State.reset.kbd with rows := #v[0xFE, 0xBF, 0xFF, 0xFF, 0xFF, 0xFF, 0xFF, 0xFF], rowsel := 0xFD, rse := rse,
                                  det := det, phase := .pressedRecently } }

/-- The power-on image `IMG` of 95_test_vectors.md, of which only these cells are read here. -/
def withImage : State := { State.reset with rom := [(0x2001, 0x01), (0x3FFF, 0xFF), (0x7FFC, 0xFC), (0x7FFF, 0xFF)] }

/-! ## Ill-formed instructions -/

/-- Addresses just outside the ramRead rows are refused. -/
theorem test_illFormed_ramRead :
    (Instr.rdRam 0x8000).wellFormed = false := by decide

/-- Addresses just outside the romRead rows are refused. -/
theorem test_illFormed_romRead :
    (Instr.rdRomA 0x9FFF).wellFormed = false ∧
    (Instr.rdRomA 0xC000).wellFormed = false ∧
    (Instr.rdRomMidF100 0xF0FF).wellFormed = false ∧
    (Instr.rdRomMidF100 0xF200).wellFormed = false ∧
    (Instr.rdRomMidF200 0xF1FF).wellFormed = false ∧
    (Instr.rdRomMidF200 0xF400).wellFormed = false ∧
    (Instr.rdRomMidF400 0xF3FF).wellFormed = false ∧
    (Instr.rdRomMidF400 0xF800).wellFormed = false ∧
    (Instr.rdRomKlo 0xF7FF).wellFormed = false ∧
    (Instr.rdRomKlo 0xFC00).wellFormed = false ∧
    (Instr.rdRomKhiFD00 0xFCFF).wellFormed = false ∧
    (Instr.rdRomKhiFD00 0xFE00).wellFormed = false ∧
    (Instr.rdRomKhiFE00 0xFDFF).wellFormed = false := by decide

/-- Addresses just outside the videoRead rows are refused. -/
theorem test_illFormed_videoRead :
    (Instr.rdVid 0xCFFF).wellFormed = false ∧
    (Instr.rdVid 0xD800).wellFormed = false := by decide

/-- Addresses just outside the keyboardRead rows are refused. -/
theorem test_illFormed_keyboardRead :
    (Instr.rdKbd 0xDEFF).wellFormed = false ∧
    (Instr.rdKbd 0xE000).wellFormed = false := by decide

/-- Addresses just outside the serialRead rows, and the wrong register select, are refused. -/
theorem test_illFormed_serialRead :
    (Instr.rdSerNatStatus 0xFBFE).wellFormed = false ∧
    (Instr.rdSerNatStatus 0xFD00).wellFormed = false ∧
    (Instr.rdSerNatStatus 0xFCFF).wellFormed = false ∧
    (Instr.rdSerNatRxdata 0xFBFF).wellFormed = false ∧
    (Instr.rdSerNatRxdata 0xFD01).wellFormed = false ∧
    (Instr.rdSerNatRxdata 0xFCFE).wellFormed = false ∧
    (Instr.rdSerLegStatus 0xEFFE).wellFormed = false ∧
    (Instr.rdSerLegStatus 0xF100).wellFormed = false ∧
    (Instr.rdSerLegStatus 0xF0FF).wellFormed = false ∧
    (Instr.rdSerLegRxdata 0xEFFF).wellFormed = false ∧
    (Instr.rdSerLegRxdata 0xF101).wellFormed = false ∧
    (Instr.rdSerLegRxdata 0xF0FE).wellFormed = false := by decide

/-- Addresses just outside the unmappedRead rows are refused. -/
theorem test_illFormed_unmappedRead :
    (Instr.rdUnmapped8000 0x7FFF).wellFormed = false ∧
    (Instr.rdUnmapped8000 0xA000).wellFormed = false ∧
    (Instr.rdUnmappedC000 0xBFFF).wellFormed = false ∧
    (Instr.rdUnmappedC000 0xD000).wellFormed = false ∧
    (Instr.rdUnmappedD800 0xD7FF).wellFormed = false ∧
    (Instr.rdUnmappedD800 0xDC00).wellFormed = false ∧
    (Instr.rdUnmappedDC00 0xDBFF).wellFormed = false ∧
    (Instr.rdUnmappedDC00 0xDE00).wellFormed = false ∧
    (Instr.rdUnmappedDE00 0xDDFF).wellFormed = false ∧
    (Instr.rdUnmappedDE00 0xDF00).wellFormed = false ∧
    (Instr.rdUnmappedE000 0xDFFF).wellFormed = false ∧
    (Instr.rdUnmappedE000 0xF000).wellFormed = false := by decide

/-- Addresses just outside the ramWrite rows are refused. -/
theorem test_illFormed_ramWrite :
    (Instr.wrRam 0x8000 0x5A).wellFormed = false := by decide

/-- Addresses just outside the romWrite rows are refused. -/
theorem test_illFormed_romWrite :
    (Instr.wrRomA 0x9FFF 0x5A).wellFormed = false ∧
    (Instr.wrRomA 0xC000 0x5A).wellFormed = false ∧
    (Instr.wrRomMidF100 0xF0FF 0x5A).wellFormed = false ∧
    (Instr.wrRomMidF100 0xF200 0x5A).wellFormed = false ∧
    (Instr.wrRomMidF200 0xF1FF 0x5A).wellFormed = false ∧
    (Instr.wrRomMidF200 0xF400 0x5A).wellFormed = false ∧
    (Instr.wrRomMidF400 0xF3FF 0x5A).wellFormed = false ∧
    (Instr.wrRomMidF400 0xF800 0x5A).wellFormed = false ∧
    (Instr.wrRomKlo 0xF7FF 0x5A).wellFormed = false ∧
    (Instr.wrRomKlo 0xFC00 0x5A).wellFormed = false ∧
    (Instr.wrRomKhiFD00 0xFCFF 0x5A).wellFormed = false ∧
    (Instr.wrRomKhiFD00 0xFE00 0x5A).wellFormed = false ∧
    (Instr.wrRomKhiFE00 0xFDFF 0x5A).wellFormed = false := by decide

/-- Addresses just outside the videoWrite rows are refused. -/
theorem test_illFormed_videoWrite :
    (Instr.wrVid 0xCFFF 0x5A).wellFormed = false ∧
    (Instr.wrVid 0xD800 0x5A).wellFormed = false := by decide

/-- Addresses just outside the keyboardWrite rows are refused. -/
theorem test_illFormed_keyboardWrite :
    (Instr.wrKbd 0xDEFF 0x5A).wellFormed = false ∧
    (Instr.wrKbd 0xE000 0x5A).wellFormed = false := by decide

/-- Addresses just outside the unusedWrite rows are refused. -/
theorem test_illFormed_unusedWrite :
    (Instr.wrUnused 0xDFFF 0x5A).wellFormed = false ∧
    (Instr.wrUnused 0xE001 0x5A).wellFormed = false := by decide

/-- Addresses just outside the serialWrite rows, and the wrong register select, are refused. -/
theorem test_illFormed_serialWrite :
    (Instr.wrSerNatControl 0xFBFE 0x5A).wellFormed = false ∧
    (Instr.wrSerNatControl 0xFD00 0x5A).wellFormed = false ∧
    (Instr.wrSerNatControl 0xFCFF 0x5A).wellFormed = false ∧
    (Instr.wrSerNatTxdata 0xFBFF 0x5A).wellFormed = false ∧
    (Instr.wrSerNatTxdata 0xFD01 0x5A).wellFormed = false ∧
    (Instr.wrSerNatTxdata 0xFCFE 0x5A).wellFormed = false ∧
    (Instr.wrSerLegControl 0xEFFE 0x5A).wellFormed = false ∧
    (Instr.wrSerLegControl 0xF100 0x5A).wellFormed = false ∧
    (Instr.wrSerLegControl 0xF0FF 0x5A).wellFormed = false ∧
    (Instr.wrSerLegTxdata 0xEFFF 0x5A).wellFormed = false ∧
    (Instr.wrSerLegTxdata 0xF101 0x5A).wellFormed = false ∧
    (Instr.wrSerLegTxdata 0xF0FE 0x5A).wellFormed = false := by decide

/-- Addresses just outside the unmappedWrite rows are refused. -/
theorem test_illFormed_unmappedWrite :
    (Instr.wrUnmapped8000 0x7FFF 0x5A).wellFormed = false ∧
    (Instr.wrUnmapped8000 0xA000 0x5A).wellFormed = false ∧
    (Instr.wrUnmappedC000 0xBFFF 0x5A).wellFormed = false ∧
    (Instr.wrUnmappedC000 0xD000 0x5A).wellFormed = false ∧
    (Instr.wrUnmappedD800 0xD7FF 0x5A).wellFormed = false ∧
    (Instr.wrUnmappedD800 0xDC00 0x5A).wellFormed = false ∧
    (Instr.wrUnmappedDC00 0xDBFF 0x5A).wellFormed = false ∧
    (Instr.wrUnmappedDC00 0xDE00 0x5A).wellFormed = false ∧
    (Instr.wrUnmappedDE00 0xDDFF 0x5A).wellFormed = false ∧
    (Instr.wrUnmappedDE00 0xDF00 0x5A).wellFormed = false ∧
    (Instr.wrUnmappedE001 0xE000 0x5A).wellFormed = false ∧
    (Instr.wrUnmappedE001 0xE002 0x5A).wellFormed = false ∧
    (Instr.wrUnmappedE002 0xE001 0x5A).wellFormed = false ∧
    (Instr.wrUnmappedE002 0xE004 0x5A).wellFormed = false ∧
    (Instr.wrUnmappedE004 0xE003 0x5A).wellFormed = false ∧
    (Instr.wrUnmappedE004 0xE008 0x5A).wellFormed = false ∧
    (Instr.wrUnmappedE008 0xE007 0x5A).wellFormed = false ∧
    (Instr.wrUnmappedE008 0xE010 0x5A).wellFormed = false ∧
    (Instr.wrUnmappedE010 0xE00F 0x5A).wellFormed = false ∧
    (Instr.wrUnmappedE010 0xE020 0x5A).wellFormed = false ∧
    (Instr.wrUnmappedE020 0xE01F 0x5A).wellFormed = false ∧
    (Instr.wrUnmappedE020 0xE040 0x5A).wellFormed = false ∧
    (Instr.wrUnmappedE040 0xE03F 0x5A).wellFormed = false ∧
    (Instr.wrUnmappedE040 0xE080 0x5A).wellFormed = false ∧
    (Instr.wrUnmappedE080 0xE07F 0x5A).wellFormed = false ∧
    (Instr.wrUnmappedE080 0xE100 0x5A).wellFormed = false ∧
    (Instr.wrUnmappedE100 0xE0FF 0x5A).wellFormed = false ∧
    (Instr.wrUnmappedE100 0xE200 0x5A).wellFormed = false ∧
    (Instr.wrUnmappedE200 0xE1FF 0x5A).wellFormed = false ∧
    (Instr.wrUnmappedE200 0xE400 0x5A).wellFormed = false ∧
    (Instr.wrUnmappedE400 0xE3FF 0x5A).wellFormed = false ∧
    (Instr.wrUnmappedE400 0xE800 0x5A).wellFormed = false ∧
    (Instr.wrUnmappedE800 0xE7FF 0x5A).wellFormed = false ∧
    (Instr.wrUnmappedE800 0xF000 0x5A).wellFormed = false := by decide

/-! ## Decoding -/

/-- The ram read rows, each word written bit by bit from its row's encoding (30_encoding.md R64), its free address bits 1. -/
theorem test_decode_ramRead :
    decode 0b0_0111111111111111_11111111 = .ok (.rdRam 0x7FFF) := by decide

/-- The rom read rows, each word written bit by bit from its row's encoding (30_encoding.md R64), its free address bits 1. -/
theorem test_decode_romRead :
    decode 0b0_1011111111111111_11111111 = .ok (.rdRomA 0xBFFF) ∧
    decode 0b0_1111000111111111_11111111 = .ok (.rdRomMidF100 0xF1FF) ∧
    decode 0b0_1111001111111111_11111111 = .ok (.rdRomMidF200 0xF3FF) ∧
    decode 0b0_1111011111111111_11111111 = .ok (.rdRomMidF400 0xF7FF) ∧
    decode 0b0_1111101111111111_11111111 = .ok (.rdRomKlo 0xFBFF) ∧
    decode 0b0_1111110111111111_11111111 = .ok (.rdRomKhiFD00 0xFDFF) ∧
    decode 0b0_1111111111111111_11111111 = .ok (.rdRomKhiFE00 0xFFFF) := by decide

/-- The video read rows, each word written bit by bit from its row's encoding (30_encoding.md R64), its free address bits 1. -/
theorem test_decode_videoRead :
    decode 0b0_1101011111111111_11111111 = .ok (.rdVid 0xD7FF) := by decide

/-- The keyboard read rows, each word written bit by bit from its row's encoding (30_encoding.md R64), its free address bits 1. -/
theorem test_decode_keyboardRead :
    decode 0b0_1101111111111111_11111111 = .ok (.rdKbd 0xDFFF) := by decide

/-- The serial read rows, each word written bit by bit from its row's encoding (30_encoding.md R64), its free address bits 1. -/
theorem test_decode_serialRead :
    decode 0b0_1111110011111110_11111111 = .ok (.rdSerNatStatus 0xFCFE) ∧
    decode 0b0_1111110011111111_11111111 = .ok (.rdSerNatRxdata 0xFCFF) ∧
    decode 0b0_1111000011111110_11111111 = .ok (.rdSerLegStatus 0xF0FE) ∧
    decode 0b0_1111000011111111_11111111 = .ok (.rdSerLegRxdata 0xF0FF) := by decide

/-- The unmapped read rows, each word written bit by bit from its row's encoding (30_encoding.md R64), its free address bits 1. -/
theorem test_decode_unmappedRead :
    decode 0b0_1001111111111111_11111111 = .ok (.rdUnmapped8000 0x9FFF) ∧
    decode 0b0_1100111111111111_11111111 = .ok (.rdUnmappedC000 0xCFFF) ∧
    decode 0b0_1101101111111111_11111111 = .ok (.rdUnmappedD800 0xDBFF) ∧
    decode 0b0_1101110111111111_11111111 = .ok (.rdUnmappedDC00 0xDDFF) ∧
    decode 0b0_1101111011111111_11111111 = .ok (.rdUnmappedDE00 0xDEFF) ∧
    decode 0b0_1110111111111111_11111111 = .ok (.rdUnmappedE000 0xEFFF) := by decide

/-- The ram write rows, each word written bit by bit from its row's encoding (30_encoding.md R64), its free address bits 1. -/
theorem test_decode_ramWrite :
    decode 0b1_0111111111111111_01011010 = .ok (.wrRam 0x7FFF 0x5A) := by decide

/-- The rom write rows, each word written bit by bit from its row's encoding (30_encoding.md R64), its free address bits 1. -/
theorem test_decode_romWrite :
    decode 0b1_1011111111111111_01011010 = .ok (.wrRomA 0xBFFF 0x5A) ∧
    decode 0b1_1111000111111111_01011010 = .ok (.wrRomMidF100 0xF1FF 0x5A) ∧
    decode 0b1_1111001111111111_01011010 = .ok (.wrRomMidF200 0xF3FF 0x5A) ∧
    decode 0b1_1111011111111111_01011010 = .ok (.wrRomMidF400 0xF7FF 0x5A) ∧
    decode 0b1_1111101111111111_01011010 = .ok (.wrRomKlo 0xFBFF 0x5A) ∧
    decode 0b1_1111110111111111_01011010 = .ok (.wrRomKhiFD00 0xFDFF 0x5A) ∧
    decode 0b1_1111111111111111_01011010 = .ok (.wrRomKhiFE00 0xFFFF 0x5A) := by decide

/-- The video write rows, each word written bit by bit from its row's encoding (30_encoding.md R64), its free address bits 1. -/
theorem test_decode_videoWrite :
    decode 0b1_1101011111111111_01011010 = .ok (.wrVid 0xD7FF 0x5A) := by decide

/-- The keyboard write rows, each word written bit by bit from its row's encoding (30_encoding.md R64), its free address bits 1. -/
theorem test_decode_keyboardWrite :
    decode 0b1_1101111111111111_01011010 = .ok (.wrKbd 0xDFFF 0x5A) := by decide

/-- The unused write rows, each word written bit by bit from its row's encoding (30_encoding.md R64), its free address bits 1. -/
theorem test_decode_unusedWrite :
    decode 0b1_1110000000000000_01011010 = .ok (.wrUnused 0xE000 0x5A) := by decide

/-- The serial write rows, each word written bit by bit from its row's encoding (30_encoding.md R64), its free address bits 1. -/
theorem test_decode_serialWrite :
    decode 0b1_1111110011111110_01011010 = .ok (.wrSerNatControl 0xFCFE 0x5A) ∧
    decode 0b1_1111110011111111_01011010 = .ok (.wrSerNatTxdata 0xFCFF 0x5A) ∧
    decode 0b1_1111000011111110_01011010 = .ok (.wrSerLegControl 0xF0FE 0x5A) ∧
    decode 0b1_1111000011111111_01011010 = .ok (.wrSerLegTxdata 0xF0FF 0x5A) := by decide

/-- The unmapped write rows, each word written bit by bit from its row's encoding (30_encoding.md R64), its free address bits 1. -/
theorem test_decode_unmappedWrite :
    decode 0b1_1001111111111111_01011010 = .ok (.wrUnmapped8000 0x9FFF 0x5A) ∧
    decode 0b1_1100111111111111_01011010 = .ok (.wrUnmappedC000 0xCFFF 0x5A) ∧
    decode 0b1_1101101111111111_01011010 = .ok (.wrUnmappedD800 0xDBFF 0x5A) ∧
    decode 0b1_1101110111111111_01011010 = .ok (.wrUnmappedDC00 0xDDFF 0x5A) ∧
    decode 0b1_1101111011111111_01011010 = .ok (.wrUnmappedDE00 0xDEFF 0x5A) ∧
    decode 0b1_1110000000000001_01011010 = .ok (.wrUnmappedE001 0xE001 0x5A) ∧
    decode 0b1_1110000000000011_01011010 = .ok (.wrUnmappedE002 0xE003 0x5A) ∧
    decode 0b1_1110000000000111_01011010 = .ok (.wrUnmappedE004 0xE007 0x5A) ∧
    decode 0b1_1110000000001111_01011010 = .ok (.wrUnmappedE008 0xE00F 0x5A) ∧
    decode 0b1_1110000000011111_01011010 = .ok (.wrUnmappedE010 0xE01F 0x5A) ∧
    decode 0b1_1110000000111111_01011010 = .ok (.wrUnmappedE020 0xE03F 0x5A) ∧
    decode 0b1_1110000001111111_01011010 = .ok (.wrUnmappedE040 0xE07F 0x5A) ∧
    decode 0b1_1110000011111111_01011010 = .ok (.wrUnmappedE080 0xE0FF 0x5A) ∧
    decode 0b1_1110000111111111_01011010 = .ok (.wrUnmappedE100 0xE1FF 0x5A) ∧
    decode 0b1_1110001111111111_01011010 = .ok (.wrUnmappedE200 0xE3FF 0x5A) ∧
    decode 0b1_1110011111111111_01011010 = .ok (.wrUnmappedE400 0xE7FF 0x5A) ∧
    decode 0b1_1110111111111111_01011010 = .ok (.wrUnmappedE800 0xEFFF 0x5A) := by decide
/-- The other words of 95_test_vectors.md V2, read. -/
theorem test_decode_vectorReads :
    decodeTableWord 25 0x0800000 = some (.rdUnmapped8000 0x8000) ∧ decodeTableWord 25 0x0A00000 = some (.rdRomA 0xA000) ∧
    decodeTableWord 25 0x0C00000 = some (.rdUnmappedC000 0xC000) ∧ decodeTableWord 25 0x0D80000 = some (.rdUnmappedD800 0xD800) ∧
    decodeTableWord 25 0x0E00000 = some (.rdUnmappedE000 0xE000) ∧ decodeTableWord 25 0x0F00000 = some (.rdSerLegStatus 0xF000) ∧
    decodeTableWord 25 0x0F10000 = some (.rdRomMidF100 0xF100) ∧ decodeTableWord 25 0x0F80000 = some (.rdRomKlo 0xF800) ∧
    decodeTableWord 25 0x0FC0000 = some (.rdSerNatStatus 0xFC00) ∧ decodeTableWord 25 0x0FC0100 = some (.rdSerNatRxdata 0xFC01) ∧
    decodeTableWord 25 0x0FD0000 = some (.rdRomKhiFD00 0xFD00) ∧ decodeTableWord 25 0x0FFFC00 = some (.rdRomKhiFE00 0xFFFC) := by
  decide

/-- The other words of 95_test_vectors.md V2, written. -/
theorem test_decode_vectorWrites :
    decodeTableWord 25 0x1800044 = some (.wrUnmapped8000 0x8000 0x44) ∧ decodeTableWord 25 0x1F0FF0A = some (.wrSerLegTxdata 0xF0FF 0x0A) ∧
    decodeTableWord 25 0x1FC0003 = some (.wrSerNatControl 0xFC00 0x03) ∧ decodeTableWord 25 0x1FC0158 = some (.wrSerNatTxdata 0xFC01 0x58) ∧
    decodeTableWord 25 0x1FFFF00 = some (.wrRomKhiFE00 0xFFFF 0x00) := by decide

/-- A number with a bit above bit 24 is no transaction word (30_encoding.md R60, R68). -/
theorem test_decode_tooWide : decodeNumber 0x2000000 = .error .tooWide ∧ decodeTableWord 32 0x2000000 = none := ⟨rfl, rfl⟩

/-- The encoder gives words of 95_test_vectors.md. -/
theorem test_encode_vectors :
    encode (.wrRam 0x1234 0xA5) = 0x11234A5 ∧ encode (.rdRam 0x1234) = 0x0123400 ∧ encode (.wrKbd 0xDF00 0xFD) = 0x1DF00FD ∧
    encode (.wrSerLegTxdata 0xF0FF 0x0A) = 0x1F0FF0A ∧ encode (.rdVid 0xD040) = 0x0D04000 := by decide

/-- The pseudo-operations of 30_encoding.md R70 on the default map. -/
theorem test_pseudo_ops :
    (PseudoOp.scan 0xFD).expand 0xDF00 0xFC00 = [0x1DF00FD, 0x0DF0000] ∧ PseudoOp.getStat.expand 0xDF00 0xFC00 = [0x0FC0000] ∧
    PseudoOp.getC.expand 0xDF00 0xFC00 = [0x0FC0100] ∧ (PseudoOp.putC 0x58).expand 0xDF00 0xFC00 = [0x1FC0158] ∧
    (PseudoOp.setCtl 0x95).expand 0xDF00 0xFC00 = [0x1FC0095] := by decide

/-- 30_encoding.md R64: the split of the middle ROM window, and of the range between video and keyboard, into blocks. -/
theorem test_blocks :
    windowBlocks ⟨0xF100, 0xF7FF⟩ = [⟨0xF100, 8⟩, ⟨0xF200, 9⟩, ⟨0xF400, 10⟩] ∧
    windowBlocks ⟨0xFD00, 0xFFFF⟩ = [⟨0xFD00, 8⟩, ⟨0xFE00, 9⟩] ∧
    unmappedBlocks [⟨0x0000, 0xD7FF⟩, ⟨0xDF00, 0xFFFF⟩] = [⟨0xD800, 10⟩, ⟨0xDC00, 9⟩, ⟨0xDE00, 8⟩] := by decide

/-- The mnemonics of the table regenerated from the standard map are those of spec/opcode_table.json. -/
theorem test_regenerated_reads :
    (regeneratedReads AddressMap.standard).map TableRow.mnemonic =
    ["RD_RAM", "RD_ROM_A", "RD_ROM_MID_F100", "RD_ROM_MID_F200", "RD_ROM_MID_F400", "RD_ROM_KLO",
     "RD_ROM_KHI_FD00", "RD_ROM_KHI_FE00", "RD_VID", "RD_KBD", "RD_SER_NAT_STATUS", "RD_SER_NAT_RXDATA",
     "RD_SER_LEG_STATUS", "RD_SER_LEG_RXDATA", "RD_UNMAPPED_8000", "RD_UNMAPPED_C000", "RD_UNMAPPED_D800",
     "RD_UNMAPPED_DC00", "RD_UNMAPPED_DE00", "RD_UNMAPPED_E000"] := by decide
theorem test_regenerated_writes :
    (regeneratedWrites AddressMap.standard).map TableRow.mnemonic =
    ["WR_RAM", "WR_ROM_A", "WR_ROM_MID_F100", "WR_ROM_MID_F200", "WR_ROM_MID_F400", "WR_ROM_KLO",
     "WR_ROM_KHI_FD00", "WR_ROM_KHI_FE00", "WR_VID", "WR_KBD", "WR_UNUSED", "WR_SER_NAT_CONTROL",
     "WR_SER_NAT_TXDATA", "WR_SER_LEG_CONTROL", "WR_SER_LEG_TXDATA", "WR_UNMAPPED_8000", "WR_UNMAPPED_C000",
     "WR_UNMAPPED_D800", "WR_UNMAPPED_DC00", "WR_UNMAPPED_DE00", "WR_UNMAPPED_E001", "WR_UNMAPPED_E002",
     "WR_UNMAPPED_E004", "WR_UNMAPPED_E008", "WR_UNMAPPED_E010", "WR_UNMAPPED_E020", "WR_UNMAPPED_E040",
     "WR_UNMAPPED_E080", "WR_UNMAPPED_E100", "WR_UNMAPPED_E200", "WR_UNMAPPED_E400", "WR_UNMAPPED_E800"] := by decide

/-- 40_bus.md R77 by hand: with the alias at 0xF001 the offset's bit 0 is the address's bit 0 inverted. -/
theorem test_regenerated_oddAlias :
    (serialRows false "SER_LEG" oddAlias.serLeg ("_STATUS", .statusRead) ("_RXDATA", .receiveRead)) =
      [⟨"RD_SER_LEG_STATUS_F001", 0x0F00100, 0x1FFFF00, .statusRead⟩, ⟨"RD_SER_LEG_RXDATA_F002", 0x0F00200, 0x1FFFF00, .receiveRead⟩,
       ⟨"RD_SER_LEG_STATUS_F002", 0x0F00300, 0x1FFFF00, .statusRead⟩] ∧
    ((lookupRow oddAlias 0x0F00100).map TableRow.rule, (lookupRow oddAlias 0x0F00000).map TableRow.rule) =
      (some .statusRead, some .unmappedRead) := by decide

/-! ## One-step vectors -/

/-- W1 steps 1 and 2, M1. -/
theorem test_ram_write : (after 0x11234A5 State.reset).map State.ram = some [(0x1234, 0xA5)] := by decide
theorem test_ram_read :
    reads 0x0123400 { State.reset with ram := [(0x1234, 0xA5)] } = some 0xA5 ∧ reads 0x0400000 State.reset = some 0x00 := by decide

/-- M3, and the canonical form: writing zero over a byte removes its cell. -/
theorem test_ram_overwrite :
    (after 0x1001002 { State.reset with ram := [(0x10, 1)] }).map State.ram = some [(0x10, 2)] ∧
    (after 0x1001000 { State.reset with ram := [(0x10, 1)] }).map State.ram = some [] := by decide

/-- W2, R1, R2 and V1: the four ROM windows read one array. -/
theorem test_rom_read :
    reads 0x0A00100 withImage = some 0x01 ∧ reads 0x0BFFF00 withImage = some 0xFF ∧ reads 0x0FFFC00 withImage = some 0xFC ∧
    reads 0x0FFFF00 withImage = some 0xFF ∧ reads 0x0F10000 withImage = some 0x00 := by decide

/-- R3 and W2 step 2: a ROM write changes nothing. -/
theorem test_rom_write :
    (after 0x1FFFC66 withImage).map State.rom = some withImage.rom ∧ (after 0x1A00199 withImage).map State.rom = some withImage.rom := by
  decide

/-- M4, M5 and M6. -/
theorem test_video_write :
    (after 0x1D00041 State.reset).map State.vid = some [(0x000, 0x41)] ∧
    (after 0x1D7FF42 State.reset).map State.vid = some [(0x7FF, 0x42)] ∧
    (after 0x1D80042 State.reset).map State.vid = some [] := by decide

/-- P5 step 8 and M7: RAM and video are separate arrays. -/
theorem test_video_read :
    reads 0x0D04000 { State.reset with vid := [(0x040, 0x58)] } = some 0x58 ∧
    reads 0x0D00000 { State.reset with ram := [(0, 0x5A)] } = some 0x00 := by decide

/-- W3 and V1: the boundaries of the unmapped ranges read 0xFF. -/
theorem test_unmapped_read :
    [0x0800000, 0x09FFF00, 0x0C00000, 0x0CFFF00, 0x0D80000, 0x0DC0000, 0x0DEFF00, 0x0E00000, 0x0EFFF00].all
      (fun t => reads t State.reset == some 0xFF) = true := by decide

/-- W1 steps 3 and 5: unmapped and unused writes leave the machine as it was. -/
theorem test_unmapped_write : after 0x1800044 State.reset = some { State.reset with romPort := .closed } := by decide
theorem test_unused_write : after 0x1E00055 (withInput [0x41]) = some { withInput [0x41] with romPort := .closed } := by decide

/-- S1 and W4 step 1. -/
theorem test_status_read :
    reads 0x0FC0000 State.reset = some 0x02 ∧ reads 0x0FC0000 (withInput [0x41]) = some 0x03 ∧
    (after 0x0F0FE00 (withInput [0x41])).map State.inQ = some [0x41] := by decide

/-- W4 step 2. -/
theorem test_receive_read :
    reads 0x0FC0100 (withInput [0x41]) = some 0x41 ∧
    (after 0x0FC0100 (withInput [0x41])).map (fun s => (s.inQ, s.ser.rxlatch)) = some ([], 0x41) := by decide

/-- S3 and the last read of S4: an empty read returns the latch. -/
theorem test_receive_empty :
    reads 0x0FC0100 State.reset = some 0x00 ∧
    reads 0x0F00100 { State.reset with ser := { State.reset.ser with rxlatch := 0x32 } } = some 0x32 := by decide

/-- S5. -/
theorem test_control_write :
    (after 0x1FC0095 State.reset).map (fun s => (s.ser.control, s.outQ)) = some (0x95, []) := by decide

/-- S6, both windows. -/
theorem test_transmit_write :
    (after 0x1FC010D State.reset).map (fun s => (s.outQ, s.ser.txdata)) = some ([0x0D], 0x0D) ∧
    (after 0x1F0FF0A { State.reset with outQ := [0x0D] }).map (fun s => (s.outQ, s.ser.txdata, s.ser.tdreFlag)) =
      some ([0x0D, 0x0A], 0x0A, true) := by decide

/-- K1, K2 and K3. -/
theorem test_scan_lock :
    reads 0x0DF0000 State.reset = some 0xFE ∧
    reads 0x0DF0000 { State.reset with kbd := { State.reset.kbd with rowsel := 0xFF } } = some 0xFF ∧
    reads 0x0DF8000 { State.reset with kbd := { State.reset.kbd with rowsel := 0xFE } } = some 0xFE := by decide

/-- S8: the keyboard takes the console byte. -/
theorem test_scan_poll :
    reads 0x0DF0000 (withInput [0x41]) = some 0xBE ∧
    (after 0x0DF0000 (withInput [0x41])).map (fun s => (s.inQ, s.kbd.rows[1], s.ser.rxlatch)) = some ([], 0xBF, 0x00) := by decide

/-- W5 step 3: the third detection releases every key after the value is taken. -/
theorem test_scan_fast_release :
    reads 0x0DF0000 (pressedA 2 2) = some 0xBF ∧
    (after 0x0DF0000 (pressedA 2 2)).map (fun s => (s.kbd.rows, s.kbd.rse, s.kbd.det, s.kbd.phase)) =
      some (Vector.replicate 8 0xFF, 3, 0, .idle) := by decide

/-- K6, read 100: the backup release; K7, read 11: no detection past the window; K14: the saturated counter. -/
theorem test_scan_backup_release :
    (after 0x0DF0000 (pressedA 99 0)).map (fun s => (s.kbd.rows, s.kbd.rse, s.kbd.phase)) =
      some (Vector.replicate 8 0xFF, 100, .idle) ∧
    (after 0x0DF0000 (pressedA 10 0)).map (fun s => (s.kbd.rse, s.kbd.det)) = some (11, 0) := by decide
theorem test_scan_saturates :
    (after 0x0DF0000 { State.reset with kbd := { State.reset.kbd with rse := 100 } }).map (fun s => (s.kbd.rse, s.kbd.rows)) =
      some (100, State.reset.kbd.rows) := by decide

/-- K4, K4b and K9: a row-select write polls, counts nothing, and is no scan. -/
theorem test_rowsel_write :
    (after 0x1DF00FD (withInput [0x41])).map (fun s => (s.kbd.rowsel, s.kbd.rows[1], s.kbd.rse, s.kbd.phase)) =
      some (0xFD, 0xBF, 0, .pressedRecently) ∧
    (after 0x1DF00FD (withInput [0x61])).map (fun s => s.kbd.rows[1]) = some 0xBF ∧
    (after 0x1DF00FF (pressedA 5 2)).map (fun s => (s.kbd.rse, s.kbd.det)) = some (5, 2) := by decide

/-- 44_host.md R148 on images short enough to write down, R7 for the empty one. -/
theorem test_rom_load :
    (romLoad config [0xAA, 0x00, 0xBB] State.reset).rom = [(0, 0xAA), (2, 0xBB)] ∧
    (romLoad config [0xAA] { State.reset with rom := [(0, 1), (1, 2)] }).rom = [(0, 0xAA), (1, 2)] ∧
    (romLoad config [] State.reset).romLenMismatch = true := by decide

/-- W7: a reset request changes nothing in the block. -/
theorem test_reset_request :
    pacerCheck (requestReset { State.reset with ram := [(0, 0x77)] }) = { State.reset with ram := [(0, 0x77)], cpuResets := 1 } := by
  decide

/-- P2 step 3 and 44_host.md R151. -/
theorem test_drain : (conDrain 1 { State.reset with outQ := [0x48, 0x69] }).outQ = [0x69] := by decide

/-! ## Witnesses: the hypotheses of the obligations can be met -/

/-- A configuration other than the standard one that meets 00_scope.md R8, R10, R11. -/
theorem config_wellFormed : config.WellFormed where
  map := by constructor <;> first | decide | exact ⟨8, by decide⟩
  ramSize := ⟨15, rfl⟩
  romSize := ⟨15, rfl⟩
  vidWindow := by decide
  keyA := rfl
  window := by decide
  count := by decide

theorem configAny_wellFormed : configAny.WellFormed := ⟨config_wellFormed.1, ⟨15, rfl⟩, ⟨15, rfl⟩, by decide, rfl, by decide, by decide⟩

theorem witness_DecodeOfEncodeIsIdentity : (Instr.wrVid 0xD7FF 0x42).wellFormed = true := by decide

theorem witness_DecodedInstructionFollowsTheBusRules : decode 0x1D7FF42 = .ok (.wrVid 0xD7FF 0x42) := by rfl

theorem witness_StepRunsTheDecodedInstruction :
    ({ State.reset with agenda := [.bus 0x1D7FF42] } : State).agenda = .bus 0x1D7FF42 :: [] ∧
    decode 0x1D7FF42 = .ok (.wrVid 0xD7FF 0x42) := ⟨rfl, rfl⟩

theorem witness_NothingHappensBetweenTransactions : State.reset.agenda = [] := rfl

theorem witness_PlacedWordRunsNext : (Instr.rdSerLegRxdata 0xF0FF).wellFormed = true ∧ 25 ≤ 25 := by decide

/-- RAM: the last address of the window, in a configuration and in the row. -/
theorem witness_RamReadReturnsTheByte :
    config.WellFormed ∧ config.map.ramW.Contains 0x7FFF ∧ (Instr.rdRam 0x7FFF).wellFormed = true ∧
    (∀ x ∈ ({ State.reset with ram := [(0x7FFE, 0x22)] } : State).ram, x.1 ≠ 0x7FFF) :=
  ⟨config_wellFormed, by decide, by decide, by decide⟩

/-- RAM: an array in canonical form, a byte already held at the last address, and that address in a configuration. -/
theorem witness_RamWriteStoresTheByte :
    config.WellFormed ∧ config.map.ramW.Contains 0x7FFF ∧
    Memory.wf (config.unlisted .ram) ({ State.reset with ram := [(0x7FFF, 0x22)] } : State).ram ∧
    Memory.wf (Config.standard.unlisted .ram) ({ State.reset with ram := [(0x7FFF, 0x22)] } : State).ram ∧
    ({ State.reset with ram := [(0x7FFF, 0x22)] } : State).peek Config.standard .ram ((0x7FFF : Addr).toNat % Config.standard.ramSize) = 0x22 :=
  ⟨config_wellFormed, by decide, by decide, by decide, by decide⟩

/-- ROM reads: an end of each of the four windows, and of each row. -/
theorem witness_RomReadReturnsTheImageByte :
    (config.WellFormed ∧ config.map.romA.Contains 0xBFFF ∧ config.map.romMid.Contains 0xF100 ∧ config.map.romKlo.Contains 0xFBFF ∧
      config.map.romKhi.Contains 0xFFFF) ∧
    (Instr.rdRomA 0xA000).wellFormed = true ∧ (Instr.rdRomA 0xBFFF).wellFormed = true ∧
    (Instr.rdRomMidF100 0xF100).wellFormed = true ∧ (Instr.rdRomMidF200 0xF3FF).wellFormed = true ∧
    (Instr.rdRomMidF400 0xF7FF).wellFormed = true ∧ (Instr.rdRomKlo 0xF800).wellFormed = true ∧
    (Instr.rdRomKhiFD00 0xFD00).wellFormed = true ∧ (Instr.rdRomKhiFE00 0xFFFF).wellFormed = true :=
  ⟨⟨config_wellFormed, by decide, by decide, by decide, by decide⟩, by decide⟩

/-- ROM writes: an end of each of the four windows. -/
theorem witness_RomWriteChangesNothing :
    config.WellFormed ∧ config.map.romA.Contains 0xA000 ∧ config.map.romMid.Contains 0xF7FF ∧ config.map.romKlo.Contains 0xF800 ∧
    config.map.romKhi.Contains 0xFFFF := ⟨config_wellFormed, by decide, by decide, by decide, by decide⟩

theorem witness_VideoReadReturnsTheByte :
    (Instr.rdVid 0xD000).wellFormed = true ∧ (Instr.rdVid 0xD7FF).wellFormed = true ∧ config.WellFormed ∧
    config.map.vidW.Contains 0xD7FF := ⟨by decide, by decide, config_wellFormed, by decide⟩

theorem witness_VideoWriteStoresTheByte :
    Memory.wf (Config.standard.unlisted .vid) ({ State.reset with vid := [(0x7FF, 0x42)] } : State).vid ∧ config.WellFormed ∧
    config.map.vidW.Contains 0xD000 ∧ Memory.wf (config.unlisted .vid) State.reset.vid :=
  ⟨by decide, config_wellFormed, by decide, by decide⟩

/-- Unmapped reads: boundary addresses with no read target, and the unused register. -/
theorem witness_UnmappedReadReturnsTheSentinel :
    readTarget config.map 0x8000 = .none ∧ readTarget config.map 0xEFFF = .none ∧ config.WellFormed ∧
    config.map.unused.Contains 0xE000 := ⟨by decide, by decide, config_wellFormed, by decide⟩

theorem witness_UnmappedWriteIsDiscarded :
    writeTarget config.map 0x9FFF = .none ∧ writeTarget config.map 0xE001 = .none := by decide

theorem witness_UnusedRegisterWriteDoesNothing : config.WellFormed ∧ config.map.unused.Contains 0xE000 :=
  ⟨config_wellFormed, by decide⟩

theorem witness_ReceiveReadPullsOneByte : (withInput [0x41]).inQ = 0x41 :: [] ∧ State.reset.inQ = [] := by decide

/-- Control: the select of the last even address, and a read next to a stored Control byte. -/
theorem witness_ControlWriteOnlyStores :
    writeTarget config.map 0xF0FE = .serial .legacy ∧ serialSelect config.map .legacy 0xF0FE = false ∧
    ∃ t, exec (.rdSerLegStatus 0xF0FE) State.reset = .next t := ⟨by decide, by decide, _, rfl⟩

theorem witness_EmptyReceiveReadUnderAny :
    configAny.rxEmptyRead = .any ∧ readTarget configAny.map 0xFCFF = .serial .native ∧
    serialSelect configAny.map .native 0xFCFF = true ∧ State.reset.inQ = [] := by decide

/-- Transmit: the two writes of S6 complete. -/
theorem witness_TransmitWriteForwardsTheByte :
    ∃ t u, exec (.wrSerNatTxdata 0xFC01 0x0D) State.reset = .next t ∧ exec (.wrSerLegTxdata 0xFC01 0x0A) t = .next u :=
  ⟨_, _, rfl, rfl⟩

/-- Keyboard accesses: no key pending at power-on, and key 'A' pending. -/
theorem witness_KeyboardScanRead :
    pendingKey Config.standard State.reset = none ∧ pendingKey Config.standard (withInput [0x41]) = some ⟨1, 6⟩ := by decide

theorem witness_KeyboardRowSelectWrite :
    pendingKey Config.standard State.reset = none ∧ pendingKey Config.standard (withInput [0x61]) = some ⟨1, 6⟩ := by decide

/-- Scanning: at power-on the lock row hides bit 0; with no row selected every row passes. -/
theorem witness_ScanShowsPressedKeysOfSelectedRows :
    (scanValue State.reset.kbd).getLsbD 0 = false ∧ (scanValue { State.reset.kbd with rowsel := 0xFF }).getLsbD 0 = true := by decide

/-- Key codes at the boundaries of each case, one byte a case. -/
theorem witness_NormalizeByCases :
    normalizeKey config 0x61 = 0x41 ∧ normalizeKey config 0x7A = 0x5A ∧ normalizeKey config 0x60 = 0x60 ∧
    normalizeKey config 0x7B = 0x7B ∧ normalizeKey config 0x0A = 0x0D ∧ normalizeKey config 0x7F = 0x08 ∧
    normalizeKey config 0x41 = 0x41 := by decide

/-- The three cases of a scan after a press, at the values where they meet: the 10th read with the third detection, the 100th
read, the 10th read with the second detection, the 11th read. -/
theorem witness_FastAndBackupRelease :
    (∀ n d, (pressedA n d).kbd.phase = .pressedRecently ∧ pendingKey Config.standard (pressedA n d) = none ∧
      scanValue (pressedA n d).kbd ≠ 0xFF) ∧
    ((pressedA 9 2).kbd.rse + 1 ≤ 10 ∧ 3 ≤ (pressedA 9 2).kbd.det + 1) ∧ 100 ≤ (pressedA 99 0).kbd.rse + 1 ∧
    ((pressedA 9 1).kbd.rse + 1 ≤ 10 ∧ (pressedA 9 1).kbd.det + 1 < 3) ∧
    (10 < (pressedA 10 2).kbd.rse + 1 ∧ (pressedA 10 2).kbd.rse + 1 < 100 ∧ (pressedA 10 2).kbd.det < 3) :=
  ⟨fun _ _ => ⟨rfl, rfl, show scanValue (pressedA 0 0).kbd ≠ 0xFF by decide⟩, by decide, by decide, by decide, by decide⟩

/-- The state of W5 before the press, with nothing queued. -/
theorem witness_KeyIsSeenDetCountTimesThenReleased :
    config.WellFormed ∧ config.detCount ≤ config.detWindow ∧
    ({ State.reset with kbd := { State.reset.kbd with rowsel := 0xFD } } : State).kbd.phase = .idle ∧
    ({ State.reset with kbd := { State.reset.kbd with rowsel := 0xFD } } : State).kbd.det = 0 ∧
    NoKeyQueued config ({ State.reset with kbd := { State.reset.kbd with rowsel := 0xFD } } : State) ∧
    ({ State.reset with kbd := { State.reset.kbd with rowsel := 0xFD } } : State).kbd.rowsel.getLsbD (1 : Fin 8).val = false ∧
    0 < config.detCount :=
  ⟨config_wellFormed, by decide, rfl, rfl, fun _ h => (by cases h), by decide, by decide⟩

/-- A key pressed with one scan left before the backup threshold, one row selected (K6 at read 100). -/
theorem witness_BackupReleaseWithinBackupReads :
    config.WellFormed ∧ KeyboardOk config (pressedA 99 0).kbd ∧ (pressedA 99 0).kbd.phase = .pressedRecently ∧
    config.backupReads - (pressedA 99 0).kbd.rse ≤ ([0xFD] : List Byte).length :=
  ⟨config_wellFormed, ⟨by decide, by decide, by decide, by decide⟩, rfl, by decide⟩

theorem witness_NothingIsReleasedWhileIdle :
    (withInput [0x00]).kbd.phase = .idle ∧ NoKeyQueued config (withInput [0x00]) := by
  refine ⟨rfl, fun b h => ?_⟩
  cases List.mem_singleton.1 h
  rfl

theorem witness_EveryTransactionCompletes :
    ({ State.reset with agenda := [.bus 0x1FFFFFF] } : State).agenda = .bus 0x1FFFFFF :: [] := rfl

theorem witness_NoTransactionChangesRom :
    exec (.wrRomA 0xA001 0x99) withImage = .next withImage := rfl

theorem witness_KeyboardChangesOnlyByKeyboardAccess :
    exec (.wrRam 0x0010 0x00) State.reset = .next State.reset ∧ (∀ a, Instr.wrRam 0x0010 0x00 ≠ .rdKbd a) ∧
    (∀ a d, Instr.wrRam 0x0010 0x00 ≠ .wrKbd a d) := ⟨rfl, nofun, nofun⟩

/-- An instruction that leaves the input queue alone, and one that takes its head. -/
theorem witness_ConsoleBytesAreConsumedOneAtATime :
    (∃ t, exec (.rdSerNatStatus 0xFC00) (withInput [0x41]) = .next t ∧ t.inQ = [0x41]) ∧
    (∃ t, exec (.rdSerNatRxdata 0xFC01) (withInput [0x41]) = .next t ∧ t.inQ = []) := ⟨⟨_, rfl, rfl⟩, _, rfl, rfl⟩

/-- One instruction meets the premises of all three clauses. -/
theorem witness_SerialHalvesAreIndependent :
    exec (.wrRam 0x0010 0x00) State.reset = .next State.reset ∧
    (∀ a, Instr.wrRam 0x0010 0x00 ≠ .rdSerNatRxdata a ∧ Instr.wrRam 0x0010 0x00 ≠ .rdSerLegRxdata a) ∧
    (∀ a d, Instr.wrRam 0x0010 0x00 ≠ .wrSerNatTxdata a d ∧ Instr.wrRam 0x0010 0x00 ≠ .wrSerLegTxdata a d) ∧
    (∀ a d, Instr.wrRam 0x0010 0x00 ≠ .wrSerNatControl a d ∧ Instr.wrRam 0x0010 0x00 ≠ .wrSerLegControl a d) :=
  ⟨rfl, fun _ => ⟨nofun, nofun⟩, fun _ _ => ⟨nofun, nofun⟩, fun _ _ => ⟨nofun, nofun⟩⟩

/-- A store, and a byte outside it: the neighbour of the byte stored to. -/
theorem witness_OnlyStoredBytesChange :
    (∃ t, exec (.wrRam 0x7FFF 0x22) State.reset = .next t) ∧
    (∀ a d, Instr.wrRam 0x7FFF 0x22 = .wrRam a d → ¬ (Bank.ram = .ram ∧ 0x7FFE = a.toNat % Config.standard.ramSize)) ∧
    (∀ a d, Instr.wrRam 0x7FFF 0x22 = .wrVid a d → ¬ (Bank.ram = .vid ∧ 0x7FFE = a.toNat - Config.standard.vidBase)) := by
  refine ⟨⟨_, rfl⟩, fun a d h => ?_, nofun⟩
  cases h
  decide

theorem witness_TransactionsLeaveTheHostAlone :
    exec (.wrRam 0x0010 0x00) State.reset = .next State.reset := rfl

/-- Key 'A' pressed and the scan that makes the third detection on the agenda (W5 step 3). -/
def aboutToScan : State := { pressedA 2 2 with agenda := [.bus 0x0DF0000] }

/-- A state other than reset that meets the invariant, and a step from it. -/
theorem witness_StepKeepsTheInvariant :
    Inv Config.standard aboutToScan ∧ ∃ t, step aboutToScan = .next t := by
  refine ⟨⟨fun b => ?_, ⟨by decide, by decide, by decide, by decide⟩, rfl⟩, _, rfl⟩
  cases b <;> decide

theorem witness_BusRulesKeepTheInvariantInEveryConfiguration :
    config.WellFormed ∧ Inv config aboutToScan ∧ ∃ t, busStep config aboutToScan = .next t := by
  refine ⟨config_wellFormed, ⟨fun b => ?_, ⟨by decide, by decide, by decide, by decide⟩, rfl⟩, _, rfl⟩
  cases b <;> decide

/-- The last address of the video window and of each serial window. -/
theorem witness_IndexesStayInRange :
    config.WellFormed ∧ config.map.vidW.Contains 0xD7FF ∧ readTarget config.map 0xFCFF = .serial .native ∧
    readTarget config.map 0xF0FF = .serial .legacy := ⟨config_wellFormed, by decide, by decide, by decide⟩

/-- Each window has an address, and one address has no window. -/
theorem witness_EveryWindowReachesItsTarget :
    config.WellFormed ∧ config.map.ramW.Contains 0x7FFF ∧ config.map.romA.Contains 0xA000 ∧ config.map.serLeg.Contains 0xF0FF ∧
    config.map.serNat.Contains 0xFC00 ∧ config.map.vidW.Contains 0xD7FF ∧ config.map.kbdW.Contains 0xDFFF ∧
    config.map.unused.Contains 0xE000 ∧ (∀ w ∈ config.map.windows, ¬ w.Contains 0x8000) :=
  ⟨config_wellFormed, by decide, by decide, by decide, by decide, by decide, by decide, by decide, by decide⟩

/-- A read of the last offset after a write of the one before it. -/
theorem witness_LegacyAliasIsTheNativeAdapter :
    config.WellFormed ∧ ∀ x ∈ [(true, 0xFE, (0x03 : Byte)), (false, 0xFF, 0x00)], x.2.1 < config.map.serLeg.size :=
  ⟨config_wellFormed, by decide⟩

theorem witness_RamRoundTrip :
    config.WellFormed ∧ config.map.ramW.Contains 0x0000 ∧ config.map.ramW.Contains 0x7FFF ∧
    Memory.wf (config.unlisted .ram) State.reset.ram ∧
    (0x0000 : Addr).toNat % config.ramSize ≠ (0x7FFF : Addr).toNat % config.ramSize :=
  ⟨config_wellFormed, by decide, by decide, by decide, by decide⟩

/-- The byte of W4 waiting, and accesses that mix the windows. -/
theorem witness_SerialReceiveSequence :
    (Instr.rdSerNatStatus 0xFC00 = .rdSerNatStatus 0xFC00 ∨ Instr.rdSerNatStatus 0xFC00 = .rdSerLegStatus 0xFC00) ∧
    (Instr.rdSerLegRxdata 0xF0FF = .rdSerNatRxdata 0xF0FF ∨ Instr.rdSerLegRxdata 0xF0FF = .rdSerLegRxdata 0xF0FF) ∧
    (Instr.rdSerLegStatus 0xF0FE = .rdSerNatStatus 0xF0FE ∨ Instr.rdSerLegStatus 0xF0FE = .rdSerLegStatus 0xF0FE) ∧
    (withInput [0x41]).inQ = [0x41] := by decide

theorem witness_RomLoadCopiesTheOverlappingPrefix : State.reset.romPort = .opened := rfl

/-- Each clause: a first transaction, an interaction after it, and both refused loads. -/
theorem witness_SecondRomLoadIsRefused :
    (∃ t, step { State.reset with agenda := [.bus 0x0000000] } = .next t) ∧
    (HostEvent.conIn 0x41 ≠ .powerOn ∧ ({ State.reset with romPort := .closed } : State).romPort = .closed ∧
      ∃ t, hostStep config (.conIn 0x41) { State.reset with romPort := .closed } = .next t) ∧
    ({ State.reset with romPort := .loaded } : State).romPort = .loaded := ⟨⟨_, rfl⟩, ⟨nofun, rfl, _, rfl⟩, rfl⟩

theorem witness_ConsoleArrivalAndDrain :
    ({ State.reset with agenda := [.host (.conIn 0x41)] } : State).agenda = .host (.conIn 0x41) :: [] ∧
    ({ State.reset with agenda := [.host (.conOut 0)] } : State).agenda = .host (.conOut 0) :: [] := ⟨rfl, rfl⟩

theorem witness_HostInteractionsKeepTheBlock :
    (∃ t, hostStep config (.conOut 1) State.reset = .next t) ∧ HostEvent.conOut 1 ≠ .powerOn ∧ (∀ img, HostEvent.conOut 1 ≠ .romLoad img) :=
  ⟨⟨_, rfl⟩, nofun, nofun⟩

theorem witness_ResetRequestReachesOnlyTheCpu :
    ∃ t u, hostStep config .resetRequest State.reset = .next t ∧ hostStep config .pacerCheck t = .next u := ⟨_, _, rfl, rfl⟩

theorem witness_TransmittedBytesAreNeverLost : step State.reset = .next State.reset := rfl

/-- Two machines that differ in Control only, and a run of one. -/
theorem witness_WriteOnlyRegistersAreNeverObserved :
    State.reset.hideWriteOnly = ({ State.reset with ser := { State.reset.ser with control := 0x95 } } : State).hideWriteOnly ∧
    Sys2Proof.core.run 1 State.reset = .next State.reset := ⟨rfl, rfl⟩

theorem witness_CanonicalMemoryIsDeterminedByItsReads :
    Memory.wf 0x00 [(0, 0x11), (0x7FFF, 0x22)] ∧ Memory.wf 0x00 [(0, 0x11), (0x7FFF, 0x22)] ∧
    ∀ i, Memory.read 0x00 [(0, 0x11), (0x7FFF, 0x22)] i = Memory.read 0x00 [(0, 0x11), (0x7FFF, 0x22)] i :=
  ⟨by decide, by decide, fun _ => rfl⟩

theorem witness_PowerOnStartsANewRun :
    ({ withInput [0x41] with agenda := [.host .powerOn] } : State).agenda = .host .powerOn :: [] := rfl

/-- A configuration whose table differs from the standard one: the alias starts at an odd address. -/
theorem witness_RegeneratedTableFollowsTheBusRules : ({ config with map := oddAlias } : Config).WellFormed where
  map := by constructor <;> first | decide | exact ⟨8, by decide⟩
  ramSize := ⟨15, rfl⟩
  romSize := ⟨15, rfl⟩
  vidWindow := by decide
  keyA := rfl
  window := by decide
  count := by decide

end Sys2Proof.Tests
end

section
/-! The memory rules of the bus: which rule an address of the RAM, ROM and video windows and of unmapped space reaches
(40_bus.md R75), what each rule stores, answers and leaves unchanged (R78 to R85), and the statements about them. -/

namespace Sys2Proof.Machine

open Sys2Proof

section Target

variable {m : AddressMap} {a : Addr}

/-- The windows are disjoint, so an address of an entry of the dispatch table from the `n`-th on lies in no entry before the
`n`-th (20_memory.md R42). -/
theorem not_contains_of_earlier (hm : m.WellFormed) (n : Nat) {w : Window} (hw : w ∈ m.windows.drop n) (h : w.Contains a) :
    ∀ v ∈ m.windows.take n, ¬ v.Contains a := by
  intro v hv hva
  have hd := hm.disjoint
  rw [← List.take_append_drop n m.windows, List.pairwise_append] at hd
  have hvw : v.Disjoint w := hd.2.2 v hv w hw
  omega

theorem targets_of_ramW (h : m.ramW.Contains a) : readTarget m a = .ram ∧ writeTarget m a = .ram :=
  ⟨if_pos h, if_pos h⟩

theorem targets_of_vidW (hm : m.WellFormed) (h : m.vidW.Contains a) : readTarget m a = .video ∧ writeTarget m a = .video := by
  have he := not_contains_of_earlier hm 3 (.head _) h
  simp only [AddressMap.windows, List.take_succ_cons, List.take_zero, List.forall_mem_cons] at he
  simp only [readTarget, writeTarget, he, if_pos h, if_false, and_self]

theorem targets_of_rom (hm : m.WellFormed)
    (h : m.romA.Contains a ∨ m.romMid.Contains a ∨ m.romKlo.Contains a ∨ m.romKhi.Contains a) :
    readTarget m a = .rom ∧ writeTarget m a = .romNop := by
  rcases h with h | h | h | h
  on_goal 1 => have he := not_contains_of_earlier hm 1 (.head _) h
  on_goal 2 => have he := not_contains_of_earlier hm 4 (.head _) h
  on_goal 3 => have he := not_contains_of_earlier hm 8 (.head _) h
  on_goal 4 => have he := not_contains_of_earlier hm 9 (.head _) h
  all_goals
    simp only [AddressMap.windows, List.take_succ_cons, List.take_zero, List.forall_mem_cons] at he
    simp only [readTarget, writeTarget, he, if_pos h, if_false, and_self]

/-- Every window of the map has a write entry, so only an address outside all of them has no write target (R75). -/
theorem writeTarget_eq_none_iff : writeTarget m a = .none ↔ ∀ w ∈ m.windows, ¬ w.Contains a := by
  simp only [writeTarget, ite_eq_iff, reduceCtorEq, and_false, false_or, and_true, AddressMap.windows, List.forall_mem_cons,
    List.not_mem_nil, false_implies, implies_true]

/-- An address outside every window has no read target either (R75). -/
theorem readTarget_eq_none (h : ∀ w ∈ m.windows, ¬ w.Contains a) : readTarget m a = .none := by
  simp only [AddressMap.windows, List.forall_mem_cons] at h
  simp only [readTarget, h, if_false]

end Target

section Rule

variable {c : Config} {a : Addr}

/-- Writing the byte an array of canonical form already holds leaves the array as it is. -/
theorem write_read_self {fill : Byte} {m : Memory} (hm : Memory.wf fill m) (i : Nat) :
    Memory.write fill m i (Memory.read fill m i) = m := by
  induction m with
  | nil => simp [Memory.write]
  | cons x m ih =>
    obtain ⟨k, v⟩ := x
    obtain ⟨hlt, hv, hw⟩ := wf_cons.1 hm
    rcases lt_trichotomy i k with hik | rfl | hik
    · have hr : Memory.read fill ((k, v) :: m) i = fill :=
        read_unlisted (List.forall_mem_cons.2 ⟨hik.ne', fun x hx => (hik.trans (hlt x hx)).ne'⟩)
      simp [hr, Memory.write, hik]
    · simp [Memory.read, Memory.write, hv]
    · simp [Memory.read, Memory.write, hik.ne, hik.ne', hik.not_gt, ih hw]

/-- What an unlisted RAM byte reads as: the power-on zero (10_state.md R23). -/
theorem peek_ram_unlisted {s : State} {i : Nat} (h : ∀ x ∈ s.ram, x.1 ≠ i) : s.peek c .ram i = 0x00 := read_unlisted h

theorem ramRead_eq (hc : ∃ n, c.ramSize = 2 ^ n) (a : Addr) (s : State) :
    ramRead c a s = { s with result := some (s.peek c .ram (a.toNat % c.ramSize)) } := by
  rw [← ramIndex_eq_mod hc]
  rfl

/-- A RAM write stores its byte at the address modulo the array's size and no other byte of the three arrays (R79). -/
theorem ramWrite_peek (hc : ∃ n, c.ramSize = 2 ^ n) {s : State} (hs : Memory.wf (c.unlisted .ram) s.ram) (a : Addr) (d : Byte)
    (b : Bank) (i : Nat) :
    (ramWrite c a d s).peek c b i = if b = .ram ∧ i = a.toNat % c.ramSize then d else s.peek c b i := by
  rw [ramWrite, acknowledge_peek, peek_pokeRam hs, ramIndex_eq_mod hc]

/-- A RAM write of the byte already held leaves the array as it is (R79). -/
theorem ramWrite_ram_of_held (hc : ∃ n, c.ramSize = 2 ^ n) {s : State} (hs : Memory.wf (c.unlisted .ram) s.ram) {a : Addr}
    {d : Byte} (h : s.peek c .ram (a.toNat % c.ramSize) = d) : (ramWrite c a d s).ram = s.ram := by
  subst h
  rw [ramWrite, acknowledge_ram, pokeRam_ram, ramIndex_eq_mod hc]
  exact write_read_self hs _

/-- A video write stores its byte at the offset in the buffer and no other byte of the three arrays (R83). -/
theorem videoWrite_peek {s : State} (hs : Memory.wf (c.unlisted .vid) s.vid) (a : Addr) (d : Byte) (b : Bank) (i : Nat) :
    (videoWrite c a d s).peek c b i = if b = .vid ∧ i = a.toNat - c.vidBase then d else s.peek c b i := by
  rw [videoWrite, acknowledge_peek, peek_pokeVid hs, vidIndex]

theorem memRead_of_ramW (h : c.map.ramW.Contains a) (s : State) : memRead c a s = ramRead c a s := by
  simp only [memRead, targets_of_ramW h]

theorem memWrite_of_ramW (h : c.map.ramW.Contains a) (d : Byte) (s : State) : memWrite c a d s = ramWrite c a d s := by
  simp only [memWrite, targets_of_ramW h]

theorem memWrite_of_vidW (hm : c.map.WellFormed) (h : c.map.vidW.Contains a) (d : Byte) (s : State) :
    memWrite c a d s = videoWrite c a d s := by
  simp only [memWrite, targets_of_vidW hm h]

theorem memRead_of_rom (hm : c.map.WellFormed)
    (h : c.map.romA.Contains a ∨ c.map.romMid.Contains a ∨ c.map.romKlo.Contains a ∨ c.map.romKhi.Contains a) (s : State) :
    memRead c a s = romRead c a s := by
  simp only [memRead, targets_of_rom hm h]

theorem memWrite_of_rom (hm : c.map.WellFormed)
    (h : c.map.romA.Contains a ∨ c.map.romMid.Contains a ∨ c.map.romKlo.Contains a ∨ c.map.romKhi.Contains a) (d : Byte)
    (s : State) : memWrite c a d s = romWrite s := by
  simp only [memWrite, targets_of_rom hm h]

theorem memRead_of_readTarget_none (h : readTarget c.map a = .none) (s : State) : memRead c a s = unmappedRead s := by
  simp only [memRead, h]

theorem memWrite_of_writeTarget_none (h : writeTarget c.map a = .none) (d : Byte) (s : State) :
    memWrite c a d s = unmappedWrite s := by
  simp only [memWrite, h]

end Rule

/-- Settles O11: the sparse array's laws of a read after a write, at the index `A mod RAM_SIZE`. -/
theorem ramWriteStoresTheByte : Obligations.RamWriteStoresTheByte := by
  refine ⟨fun a d s hs => ⟨ramWrite Config.standard a d s, rfl, rfl, ramWrite_peek standard_ramSize hs a d,
    ramWrite_ram_of_held standard_ramSize hs⟩, fun c a d s hc ha hs => ?_⟩
  rw [memWrite_of_ramW ha]
  exact ⟨rfl, ramWrite_peek hc.ramSize hs a d⟩

/-- Settles O13: a ROM window's write target is the no-op, and a ROM read does not depend on the answer of the write before it. -/
theorem romWriteChangesNothing : Obligations.RomWriteChangesNothing := by
  refine ⟨fun a d s => ⟨rfl, rfl, rfl, rfl, rfl, rfl, rfl⟩, fun c a d s hc ha => ?_⟩
  rw [memWrite_of_rom hc.map ha, memRead_of_rom hc.map ha, memRead_of_rom hc.map ha]
  exact ⟨rfl, by simp only [romRead, romWrite, answer_result, acknowledge_peek]⟩

/-- Settles O15: the sparse array's laws of a read after a write, at the index `A - VID_BASE`. -/
theorem videoWriteStoresTheByte : Obligations.VideoWriteStoresTheByte := by
  refine ⟨fun a d s hs => ⟨videoWrite Config.standard a d s, rfl, rfl, videoWrite_peek hs a d⟩, fun c a d s hc ha hs => ?_,
    fun d => ⟨rfl, rfl, by decide⟩⟩
  rw [memWrite_of_vidW hc.map ha]
  exact ⟨rfl, videoWrite_peek hs a d⟩

/-- Settles O10: the RAM rule at the index `A mod RAM_SIZE`, and the reading of an index no cell lists. -/
theorem ramReadReturnsTheByte : Obligations.RamReadReturnsTheByte := by
  refine ⟨fun a s => congrArg _ (ramRead_eq standard_ramSize a s), fun c a s hc ha => ?_, fun a ha => ?_, fun i => ?_,
    fun c s i h => peek_ram_unlisted h⟩
  · rw [memRead_of_ramW ha, ramRead_eq hc.ramSize]
  · have hlt : a.toNat ≤ 0x7FFF := ((inBlock_iff a).1 ha).2
    exact Nat.mod_eq_of_lt (Nat.lt_succ_of_le hlt)
  · exact peek_ram_unlisted nofun

/-- Settles O17: an address with no write target lies in no window, so it has no read target and still reads as the sentinel. -/
theorem unmappedWriteIsDiscarded : Obligations.UnmappedWriteIsDiscarded := by
  refine ⟨fun a d s => ⟨rfl, rfl, rfl, rfl, rfl, rfl, rfl, rfl, rfl, rfl, rfl, rfl, rfl, rfl, rfl, rfl, rfl⟩, fun c a d s h => ?_⟩
  rw [memWrite_of_writeTarget_none h, memRead_of_readTarget_none (readTarget_eq_none (writeTarget_eq_none_iff.1 h))]
  exact ⟨rfl, rfl⟩

end Sys2Proof.Machine
end

section
/-! The serial adapter's Control register (41_serial.md R105): a write reaches it through either window, and no instruction's answer
depends on it. The second fact is the frame of the write-only registers: each shared operation, then each instruction, acts on a
state as it acts on the state with those registers blanked. -/

namespace Sys2Proof.Machine

open Sys2Proof

section Hide

variable {i : Instr} {s s' t : State}

@[simp] theorem hideWriteOnly_hideWriteOnly (s : State) : s.hideWriteOnly.hideWriteOnly = s.hideWriteOnly := rfl

theorem hideWriteOnly_setControl (d : Byte) (s : State) :
    ({ s with ser := { s.ser with control := d } } : State).hideWriteOnly = s.hideWriteOnly := rfl

/-- A Receive Data read neither uses nor changes a write-only register (R104). -/
theorem serialRxRead_hideWriteOnly (c : Config) (s : State) :
    serialRxRead c s.hideWriteOnly = (serialRxRead c s).hideWriteOnly := by
  cases h : s.inQ with
  | nil =>
    cases hc : c.rxEmptyRead with
    | latch => rw [serialRxRead_latch h hc, serialRxRead_latch (show s.hideWriteOnly.inQ = [] from h) hc]; rfl
    | any => rw [serialRxRead_any h hc, serialRxRead_any (show s.hideWriteOnly.inQ = [] from h) hc]; rfl
  | cons b q => rw [serialRxRead_ready h, serialRxRead_ready (show s.hideWriteOnly.inQ = b :: q from h)]; rfl

/-- A poll of the console neither uses nor changes a write-only register (R123). -/
theorem kbdPoll_hideWriteOnly (c : Config) (s : State) : kbdPoll c s.hideWriteOnly = (kbdPoll c s).hideWriteOnly := by
  rw [kbdPoll_eq, kbdPoll_eq]
  rfl

theorem kbdRead_hideWriteOnly (c : Config) (s : State) : kbdRead c s.hideWriteOnly = (kbdRead c s).hideWriteOnly := by
  rw [kbdRead, kbdPoll_hideWriteOnly]
  rfl

theorem kbdWrite_hideWriteOnly (c : Config) (d : Byte) (s : State) :
    kbdWrite c d s.hideWriteOnly = (kbdWrite c d s).hideWriteOnly := by
  rw [kbdWrite, kbdPoll_hideWriteOnly]
  rfl

/-- Every instruction completes, and with the write-only registers blanked it does the same but for those registers (R27, R28,
R30). -/
theorem exec_hideWriteOnly (i : Instr) (s : State) :
    ∃ t u, exec i s = .next t ∧ exec i s.hideWriteOnly = .next u ∧ u.hideWriteOnly = t.hideWriteOnly := by
  cases i
  case rdSerNatRxdata | rdSerLegRxdata =>
    exact ⟨_, _, rfl, rfl, by rw [serialRxRead_hideWriteOnly, hideWriteOnly_hideWriteOnly]⟩
  case rdKbd => exact ⟨_, _, rfl, rfl, by rw [kbdRead_hideWriteOnly, hideWriteOnly_hideWriteOnly]⟩
  case wrKbd => exact ⟨_, _, rfl, rfl, by rw [kbdWrite_hideWriteOnly, hideWriteOnly_hideWriteOnly]⟩
  all_goals exact ⟨_, _, rfl, rfl, rfl⟩

/-- From two states that differ only in write-only registers, an instruction reaches two such states. -/
theorem exec_of_hideWriteOnly_eq (h : exec i s = .next t) (hs : s.hideWriteOnly = s'.hideWriteOnly) :
    ∃ t', exec i s' = .next t' ∧ t.hideWriteOnly = t'.hideWriteOnly := by
  obtain ⟨t₁, u, h₁, hu, hut⟩ := exec_hideWriteOnly i s
  obtain ⟨t', u', h', hu', hut'⟩ := exec_hideWriteOnly i s'
  obtain rfl : t = t₁ := Host.Outcome.next.inj (h.symm.trans h₁)
  obtain rfl : u = u' := Host.Outcome.next.inj (hu.symm.trans (hs ▸ hu'))
  exact ⟨t', h', hut.symm.trans hut'⟩

end Hide

/-- A write to a serial window performs the rule its register select names (R100). -/
theorem memWrite_of_serial {c : Config} {a : Addr} {w : SerialWindow} (h : writeTarget c.map a = .serial w) (d : Byte)
    (s : State) : memWrite c a d s = serialWrite (serialSelect c.map w a) d s := by
  simp only [memWrite, h]

/-- Settles O22: a write to Control stores its byte, and the state it leaves differs only in a write-only register, which no
answer depends on. -/
theorem controlWriteOnlyStores : Obligations.ControlWriteOnlyStores := by
  refine fun a d s => ⟨rfl, rfl, fun c w hw hsel => ?_, fun i t h => ?_⟩
  · rw [memWrite_of_serial hw, hsel]
    rfl
  · obtain ⟨u, hu, htu⟩ := exec_of_hideWriteOnly_eq h (hideWriteOnly_setControl d s).symm
    exact ⟨u, hu, (congrArg State.result htu).symm⟩

end Sys2Proof.Machine
end

section
/-! Every transaction completes with a defined result (60_exceptions.md R160): every word selects a row of the opcode table, the
row's direction is the word's, and each of the 52 instructions answers a next state, with a byte exactly where it is a read. -/

namespace Sys2Proof.Machine

open Sys2Proof

/-- In the table regenerated from any map every word selects a row: were its address in no window of the word's direction, an
unmapped row of that direction would hold it (R64, R65). -/
theorem regeneratedTable_selects (m : AddressMap) (t : BusWord) : ∃ r ∈ regeneratedTable m, r.selects t = true := by
  refine (List.countP_pos_iff (p := fun r : TableRow => r.selects t)).1 (Nat.pos_iff_ne_zero.2 fun h => ?_)
  simp only [regeneratedTable, regeneratedReads, regeneratedWrites, readWindows, AddressMap.windows, List.countP_append,
    windowRows_count, serialRows_count, unmappedRows_count, Nat.add_eq_zero_iff, ite_eq_right_iff, Nat.one_ne_zero, imp_false,
    List.forall_mem_cons, List.not_mem_nil, false_implies, implies_true, and_true] at h
  cases hw : wordWrite t
  all_goals
    simp only [hw, reduceCtorEq, true_and, false_and, not_false_eq_true, and_true] at h
    obtain ⟨hwindows, hunmapped⟩ := h
    exact hunmapped (by simp only [hwindows, not_false_eq_true, and_self])

/-- The standard map regenerates the masks and patterns of the opcode table, row for row (R65). -/
theorem regeneratedTable_standard_fields :
    (regeneratedTable AddressMap.standard).map (fun r => (r.mask, r.pattern)) = opcodeTable.map fun r => (r.mask, r.pattern) := by
  decide

theorem opcodeTable_selects (t : BusWord) : ∃ r ∈ opcodeTable, r.selects t = true := by
  obtain ⟨r, hr, hs⟩ := regeneratedTable_selects AddressMap.standard t
  have hmem := List.mem_map_of_mem (f := fun r : TableRow => (r.mask, r.pattern)) hr
  rw [regeneratedTable_standard_fields] at hmem
  obtain ⟨r', hr', heq⟩ := List.mem_map.1 hmem
  obtain ⟨hm, hp⟩ := Prod.mk.inj heq
  refine ⟨r', hr', ?_⟩
  rw [OpcodeRow.selects, hm, hp]
  exact hs

/-- Every row fixes bit 24 of its words, at the direction of the instruction it builds (R60, R64). -/
theorem opcodeTable_direction :
    ∀ r ∈ opcodeTable, r.mask.getLsbD 24 = true ∧ ∀ a d, (r.build a d).isWrite = r.pattern.getLsbD 24 := by
  simp only [opcodeTable, readRows, writeRows, List.cons_append, List.nil_append, List.forall_mem_cons]
  simp [Instr.isWrite]

theorem isWrite_build_of_selects {r : OpcodeRow} {t : BusWord} (hr : r ∈ opcodeTable) (hs : r.selects t = true) (a : Addr)
    (d : Byte) : (r.build a d).isWrite = wordWrite t := by
  obtain ⟨hmask, hbuild⟩ := opcodeTable_direction r hr
  rw [hbuild, ← eq_of_beq hs, BitVec.getLsbD_and, hmask, Bool.and_true, wordWrite]

/-- No word is illegal, and the instruction a word stands for has the word's direction (R60, R66). -/
theorem exists_decode_isWrite (t : BusWord) : ∃ i, decode t = .ok i ∧ i.isWrite = wordWrite t := by
  obtain ⟨r, hr⟩ := Option.isSome_iff_exists.1 (List.find?_isSome.2 (opcodeTable_selects t))
  have hs := List.find?_some hr
  exact ⟨r.build (wordAddr t) (wordData t), by rw [decode, hr],
    isWrite_build_of_selects (List.mem_of_find?_eq_some hr) hs _ _⟩

/-- A Receive Data read answers a byte, be one available or not and whatever the policy (R104). -/
theorem serialRxRead_result_isSome (c : Config) (s : State) : (serialRxRead c s).result.isSome = true := by
  cases h : s.inQ with
  | nil =>
    cases hc : c.rxEmptyRead with
    | latch => rw [serialRxRead_latch h hc]; rfl
    | any => rw [serialRxRead_any h hc]; rfl
  | cons b q => rw [serialRxRead_ready h]; rfl

/-- Every instruction completes in every state, a read with a byte and a write with none (R15, R160). -/
theorem exec_completes (i : Instr) (s : State) : ∃ u, exec i s = .next u ∧ u.result.isSome = !i.isWrite := by
  cases i
  case rdSerNatRxdata | rdSerLegRxdata => exact ⟨_, rfl, serialRxRead_result_isSome _ s⟩
  all_goals exact ⟨_, rfl, rfl⟩

theorem step_of_bus {s : State} {t : BusWord} {rest : List Event} {i : Instr} (hs : s.agenda = .bus t :: rest)
    (hd : decode t = .ok i) : step s = exec i (s.beginTransaction rest) := by
  simp only [step, hs, hd]

/-- Settles O33: the word decodes to an instruction of its direction, and every instruction completes. -/
theorem everyTransactionCompletes : Obligations.EveryTransactionCompletes := by
  intro s t rest hs
  obtain ⟨i, hd, hw⟩ := exists_decode_isWrite t
  rw [step_of_bus hs hd, ← hw]
  exact exec_completes i _

end Sys2Proof.Machine
end

section
/-! The address map (40_bus.md R75, R87, R88): which target each window's addresses reach, that the indexes and offsets computed
from an address are in range, and the statements about reads, writes and the two serial windows that follow from the target. -/

namespace Sys2Proof.Machine

open Sys2Proof

section Target

variable {m : AddressMap} {a : Addr}

theorem targets_of_serLeg (hm : m.WellFormed) (h : m.serLeg.Contains a) :
    readTarget m a = .serial .legacy ∧ writeTarget m a = .serial .legacy := by
  have he := not_contains_of_earlier hm 2 (.head _) h
  simp only [AddressMap.windows, List.take_succ_cons, List.take_zero, List.forall_mem_cons] at he
  unfold readTarget writeTarget
  grind

theorem targets_of_kbdW (hm : m.WellFormed) (h : m.kbdW.Contains a) :
    readTarget m a = .keyboard ∧ writeTarget m a = .keyboard := by
  have he := not_contains_of_earlier hm 5 (.head _) h
  simp only [AddressMap.windows, List.take_succ_cons, List.take_zero, List.forall_mem_cons] at he
  unfold readTarget writeTarget
  grind

theorem targets_of_serNat (hm : m.WellFormed) (h : m.serNat.Contains a) :
    readTarget m a = .serial .native ∧ writeTarget m a = .serial .native := by
  have he := not_contains_of_earlier hm 7 (.head _) h
  simp only [AddressMap.windows, List.take_succ_cons, List.take_zero, List.forall_mem_cons] at he
  unfold readTarget writeTarget
  grind

/-- An address outside every window with a read entry reaches no read target, the unused register's included (R75). -/
theorem readTarget_eq_none_of_readWindows (h : ∀ w ∈ readWindows m, ¬ w.Contains a) : readTarget m a = .none := by
  simp only [readWindows, List.forall_mem_cons] at h
  unfold readTarget
  grind

theorem targets_of_unused (hm : m.WellFormed) (h : m.unused.Contains a) :
    readTarget m a = .none ∧ writeTarget m a = .unusedNop := by
  have he := not_contains_of_earlier hm 6 (.head _) h
  have hl : ∀ w ∈ m.windows.drop 7, ¬ w.Contains a := fun w hw hwa =>
    not_contains_of_earlier hm 7 hw hwa m.unused (by simp [AddressMap.windows]) h
  simp only [AddressMap.windows, List.take_succ_cons, List.take_zero, List.drop_succ_cons, List.drop_zero,
    List.forall_mem_cons] at he hl
  unfold readTarget writeTarget
  grind

theorem vidW_contains_of_writeTarget (h : writeTarget m a = .video) : m.vidW.Contains a := by
  simp only [writeTarget, ite_eq_iff, reduceCtorEq, and_false, false_or, or_false, and_true] at h
  obtain ⟨-, -, -, h⟩ := h
  exact h

theorem contains_of_readTarget_serial {w : SerialWindow} (h : readTarget m a = .serial w) :
    (w = .native ∧ m.serNat.Contains a) ∨ (w = .legacy ∧ m.serLeg.Contains a) := by
  simp only [readTarget, ite_eq_iff, reduceCtorEq, and_false, false_or, or_false, ReadTarget.serial.injEq] at h
  obtain ⟨-, -, ⟨h, rfl⟩ | ⟨-, -, -, -, h, rfl⟩⟩ := h
  · exact .inr ⟨rfl, h⟩
  · exact .inl ⟨rfl, h⟩

end Target

/-- Settles O45: disjoint windows make the first matching entry of the dispatch table the only one. -/
theorem everyWindowReachesItsTarget : Obligations.EveryWindowReachesItsTarget := fun _ _ hc =>
  ⟨targets_of_ramW, targets_of_rom hc.map, targets_of_serLeg hc.map, targets_of_serNat hc.map, targets_of_vidW hc.map,
    targets_of_kbdW hc.map, targets_of_unused hc.map, fun h => ⟨readTarget_eq_none h, writeTarget_eq_none_iff.2 h⟩⟩

section Index

variable {c : Config} {a : Addr}

theorem ramIndex_lt (hc : c.WellFormed) (a : Addr) : ramIndex c a < c.ramSize := by
  rw [ramIndex_eq_mod hc.ramSize]
  obtain ⟨k, hk⟩ := hc.ramSize
  exact Nat.mod_lt _ (hk ▸ Nat.two_pow_pos k)

theorem romIndex_lt (hc : c.WellFormed) (a : Addr) : romIndex c a < c.romSize := by
  rw [romIndex_eq_mod hc.romSize]
  obtain ⟨k, hk⟩ := hc.romSize
  exact Nat.mod_lt _ (hk ▸ Nat.two_pow_pos k)

/-- The video window is the buffer: it starts at `VID_BASE` and has `VID_SIZE` addresses (R10 (e)). -/
theorem vidIndex_lt (hc : c.WellFormed) (h : c.map.vidW.Contains a) : c.vidBase ≤ a.toNat ∧ vidIndex c a < c.vidSize := by
  have := hc.vidWindow
  unfold vidIndex
  omega

/-- The legacy window is no larger than the native one, so an offset into either lies in the native one (R77). -/
theorem serialOffset_lt (hm : c.map.WellFormed) {w : SerialWindow} (h : readTarget c.map a = .serial w) :
    serialOffset c.map w a < c.map.serNat.size := by
  have hfit := hm.legacyFits
  unfold Window.size at hfit ⊢
  rcases contains_of_readTarget_serial h with ⟨rfl, h⟩ | ⟨rfl, h⟩ <;> simp only [serialOffset, serialBase] <;> omega

end Index

/-- Settles O44: masks of power-of-two arrays, the video window as the buffer, the legacy window no larger than the native one. -/
theorem indexesStayInRange : Obligations.IndexesStayInRange := fun c a hc =>
  ⟨ramIndex_lt hc a, romIndex_lt hc a, vidIndex_lt hc, fun w h => by
    have hoff := serialOffset_lt hc.map h
    refine ⟨hoff, ?_⟩
    unfold Window.size at hoff
    unfold nativeAddress
    omega⟩

/-- Settles O43: every clause is a fact about the default numbers (R8 to R11). -/
theorem standardConfigurationIsWellFormed : Obligations.StandardConfigurationIsWellFormed where
  map :=
    { inSpace := by decide
      disjoint := by decide
      kbdPage := by decide
      unusedNext := by decide
      kernelSplit := by decide
      legacyFits := by decide
      nativeSize := ⟨8, by decide⟩ }
  ramSize := standard_ramSize
  romSize := standard_romSize
  vidWindow := by decide
  keyA := by simp [Config.standard, Config.standardKeymap]
  window := by decide
  count := by decide

section Rule

variable {c : Config} {a : Addr}

theorem memRead_of_vidW (hm : c.map.WellFormed) (h : c.map.vidW.Contains a) (s : State) : memRead c a s = videoRead c a s := by
  simp only [memRead, targets_of_vidW hm h]

theorem memRead_of_kbdW (hm : c.map.WellFormed) (h : c.map.kbdW.Contains a) (s : State) : memRead c a s = kbdRead c s := by
  simp only [memRead, targets_of_kbdW hm h]

theorem memWrite_of_kbdW (hm : c.map.WellFormed) (h : c.map.kbdW.Contains a) (d : Byte) (s : State) :
    memWrite c a d s = kbdWrite c d s := by
  simp only [memWrite, targets_of_kbdW hm h]

theorem memWrite_of_unused (hm : c.map.WellFormed) (h : c.map.unused.Contains a) (d : Byte) (s : State) :
    memWrite c a d s = unusedWrite s := by
  simp only [memWrite, targets_of_unused hm h]

theorem romRead_eq (hc : ∃ n, c.romSize = 2 ^ n) (a : Addr) (s : State) :
    romRead c a s = { s with result := some (s.peek c .rom (a.toNat % c.romSize)) } := by
  rw [← romIndex_eq_mod hc]
  rfl

/-- In the upper half of the address space the default ROM index is the offset from 0x8000 (R11, R80). -/
theorem standard_romRead_eq (ha : 0x8000 ≤ a.toNat) (s : State) :
    romRead Config.standard a s = { s with result := some (s.peek Config.standard .rom (a.toNat - 0x8000)) } := by
  have hidx : a.toNat % Config.standard.romSize = a.toNat - 0x8000 := by
    have := a.isLt
    change a.toNat % 0x8000 = _
    omega
  rw [romRead_eq standard_romSize, hidx]

theorem standard_romRead_of_inBlock {lo hi : Nat} (hlo : 0x8000 ≤ lo) (h : inBlock lo hi a = true) (s : State) :
    (.next (romRead Config.standard a s) : Host.Outcome State Fault Refusal) =
      .next { s with result := some (s.peek Config.standard .rom (a.toNat - 0x8000)) } :=
  congrArg _ (standard_romRead_eq (hlo.trans ((inBlock_iff a).1 h).1) s)

end Rule

/-- Settles O12: the four ROM windows read one array at `A mod ROM_SIZE`; with the default size the rows, all in the upper half of
the address space, read byte `A - 0x8000`. -/
theorem romReadReturnsTheImageByte : Obligations.RomReadReturnsTheImageByte := by
  refine ⟨fun c a s hc ha => ?_, fun a s => ?_⟩
  · rw [memRead_of_rom hc.map ha, romRead_eq hc.romSize]
  · refine ⟨?_, ?_, ?_, ?_, ?_, ?_, ?_⟩ <;> exact fun h => standard_romRead_of_inBlock (by decide) h s

/-- Settles O14: the video rule at the index `A - VID_BASE`, and the window as the buffer. -/
theorem videoReadReturnsTheByte : Obligations.VideoReadReturnsTheByte := by
  refine ⟨fun a s => ⟨rfl, fun ha => ?_⟩, fun c a s hc ha => ⟨?_, vidIndex_lt hc ha⟩, fun i => read_nil i⟩
  · exact vidIndex_lt standardConfigurationIsWellFormed ((inBlock_iff a).1 ha)
  · rw [memRead_of_vidW hc.map ha]
    rfl

/-- Settles O16: the unmapped rule answers the sentinel, and the unused register has no read entry. -/
theorem unmappedReadReturnsTheSentinel : Obligations.UnmappedReadReturnsTheSentinel := by
  refine ⟨fun a s => ⟨rfl, rfl, rfl, rfl, rfl, rfl⟩, fun c a s h => ?_, fun c a hc ha => (targets_of_unused hc.map ha).1⟩
  rw [memRead_of_readTarget_none h]
  rfl

/-- Settles O18: the unused register's write target is the no-op, which leaves what an unmapped write leaves. -/
theorem unusedRegisterWriteDoesNothing : Obligations.UnusedRegisterWriteDoesNothing := by
  refine ⟨fun a d s => ⟨rfl, rfl⟩, fun c a d s hc ha => ?_⟩
  rw [memWrite_of_unused hc.map ha]
  rfl

/-- Settles O47: the read after the write, at the same index and at another. -/
theorem ramRoundTrip : Obligations.RamRoundTrip := by
  intro c a b v s hc ha hb hs
  rw [memWrite_of_ramW ha, memRead_of_ramW ha, memRead_of_ramW hb, memRead_of_ramW hb]
  simp only [ramRead_eq hc.ramSize, ramWrite_peek hc.ramSize hs, true_and]
  exact ⟨rfl, fun hne => by rw [if_neg hne.symm]⟩

section SerialWindows

variable {c : Config} {a : Addr}

theorem memRead_of_serial {w : SerialWindow} (h : readTarget c.map a = .serial w) (s : State) :
    memRead c a s = serialRead c (serialSelect c.map w a) s := by
  simp only [memRead, h]

/-- An address of a window, by its offset. -/
theorem window_offset {w : Window} (hw : w.hi ≤ 0xFFFF) {n : Nat} (hn : n < w.size) :
    w.Contains (BitVec.ofNat 16 (w.lo + n)) ∧ (BitVec.ofNat 16 (w.lo + n)).toNat - w.lo = n := by
  unfold Window.size at hn
  rw [Window.Contains, BitVec.toNat_ofNat, Nat.mod_eq_of_lt (by omega)]
  omega

/-- At one offset the two serial windows are the same adapter (R77, R101). -/
theorem transact_serLeg_eq_serNat (hm : c.map.WellFormed) {n : Nat} (hn : n < c.map.serLeg.size) (w : Bool) (d : Byte)
    (s : State) :
    transact c (packWord w (BitVec.ofNat 16 (c.map.serLeg.lo + n)) d) s =
      transact c (packWord w (BitVec.ofNat 16 (c.map.serNat.lo + n)) d) s := by
  obtain ⟨hleg, hlegOff⟩ := window_offset (hm.inSpace c.map.serLeg (by simp [AddressMap.windows])).2 hn
  obtain ⟨hnat, hnatOff⟩ :=
    window_offset (hm.inSpace c.map.serNat (by simp [AddressMap.windows])).2 (hn.trans_le hm.legacyFits)
  obtain ⟨hlegR, hlegW⟩ := targets_of_serLeg hm hleg
  obtain ⟨hnatR, hnatW⟩ := targets_of_serNat hm hnat
  have hsel : serialSelect c.map .legacy (BitVec.ofNat 16 (c.map.serLeg.lo + n)) =
      serialSelect c.map .native (BitVec.ofNat 16 (c.map.serNat.lo + n)) := by
    simp only [serialSelect, serialOffset, serialBase, hlegOff, hnatOff]
  simp only [transact, wordWrite_packWord, wordAddr_packWord, wordData_packWord, memRead_of_serial hlegR,
    memRead_of_serial hnatR, memWrite_of_serial hlegW, memWrite_of_serial hnatW, hsel]

end SerialWindows

/-- Settles O46: each transaction of the sequence does the same through either window. -/
theorem legacyAliasIsTheNativeAdapter : Obligations.LegacyAliasIsTheNativeAdapter := fun _ _ s hc hl =>
  List.foldl_ext _ _ s fun u x hx => transact_serLeg_eq_serNat hc.map (hl x hx) x.1 x.2.2 u

end Sys2Proof.Machine
end

section
/-! The opcode tables (30_encoding.md R64 to R66). In the table regenerated from a well-formed map a word selects one row, and the
row's rule is the one the address dispatch performs; the opcode table is the regenerated table of the standard map row for row, so
both facts carry over to it and to the decoder. -/

namespace Sys2Proof.Machine

open Sys2Proof

section Regenerated

variable {m : AddressMap} {c : Config} {t : BusWord}

/-- Of pairwise disjoint windows one holds an address, or none does. -/
theorem countP_contains_of_disjoint {l : List Window} (hl : l.Pairwise Window.Disjoint) (a : Addr) :
    l.countP (fun w => decide (w.Contains a)) + (if ∀ w ∈ l, ¬ w.Contains a then 1 else 0) = 1 := by
  induction l with
  | nil => simp
  | cons v l ih =>
    obtain ⟨hv, hl⟩ := List.pairwise_cons.1 hl
    rw [List.countP_cons]
    by_cases ha : v.Contains a
    · have htail : l.countP (fun w => decide (w.Contains a)) = 0 := by
        refine List.countP_eq_zero.2 fun w hw hwa => ?_
        have hd := hv w hw
        have hwa := of_decide_eq_true hwa
        omega
      rw [htail, if_pos (decide_eq_true ha), if_neg fun h => h v (.head _) ha]
    · rw [if_neg (by simpa only [decide_eq_true_iff] using ha), Nat.add_zero]
      simpa only [List.forall_mem_cons, ha, not_false_eq_true, true_and] using ih hl

/-- The windows with a read entry and the unused register are all windows of the map. -/
theorem readWindows_perm (m : AddressMap) : (m.unused :: readWindows m).Perm m.windows := by
  rw [List.perm_iff_count]
  intro w
  simp only [readWindows, AddressMap.windows, List.count_cons, List.count_nil]
  omega

theorem readWindows_disjoint (hm : m.WellFormed) : (readWindows m).Pairwise Window.Disjoint :=
  (List.pairwise_cons.1 (((readWindows_perm m).pairwise_iff fun h => h.symm).2 hm.disjoint)).2

theorem readWindows_countP (m : AddressMap) (p : Window → Prop) [DecidablePred p] :
    (readWindows m).countP (fun w => decide (p w)) =
      (if p m.ramW then 1 else 0) + (if p m.romA then 1 else 0) + (if p m.romMid then 1 else 0) +
      (if p m.romKlo then 1 else 0) + (if p m.romKhi then 1 else 0) + (if p m.vidW then 1 else 0) +
      (if p m.kbdW then 1 else 0) + (if p m.serNat then 1 else 0) + (if p m.serLeg then 1 else 0) := by
  simp only [readWindows, List.countP_cons, List.countP_nil, decide_eq_true_iff]
  omega

/-- Of the read rows a read word selects one for each window that holds its address, or an unmapped one (R64). -/
theorem regeneratedReads_count (m : AddressMap) (t : BusWord) :
    (regeneratedReads m).countP (fun r => r.selects t) =
      if wordWrite t = false then
        (readWindows m).countP (fun w => decide (w.Contains (wordAddr t))) +
          (if ∀ w ∈ readWindows m, ¬ w.Contains (wordAddr t) then 1 else 0)
      else 0 := by
  simp only [regeneratedReads, List.countP_append, windowRows_count, serialRows_count, unmappedRows_count]
  cases wordWrite t
  · simp only [true_and, if_true, readWindows_countP]
  · simp only [reduceCtorEq, false_and, if_false]

/-- Of the write rows a write word selects one for each window that holds its address, or an unmapped one (R64). -/
theorem regeneratedWrites_count (m : AddressMap) (t : BusWord) :
    (regeneratedWrites m).countP (fun r => r.selects t) =
      if wordWrite t = true then
        m.windows.countP (fun w => decide (w.Contains (wordAddr t))) +
          (if ∀ w ∈ m.windows, ¬ w.Contains (wordAddr t) then 1 else 0)
      else 0 := by
  simp only [regeneratedWrites, List.countP_append, windowRows_count, serialRows_count, unmappedRows_count]
  cases wordWrite t
  · simp only [reduceCtorEq, false_and, if_false]
  · rw [← (readWindows_perm m).countP_eq, List.countP_cons, readWindows_countP]
    simp only [true_and, if_true, decide_eq_true_iff]
    omega

theorem regeneratedTable_count (hm : m.WellFormed) (t : BusWord) :
    (regeneratedTable m).countP (fun r => r.selects t) = 1 := by
  rw [regeneratedTable, List.countP_append, regeneratedReads_count, regeneratedWrites_count,
    countP_contains_of_disjoint (readWindows_disjoint hm), countP_contains_of_disjoint hm.disjoint]
  cases wordWrite t <;> rfl

theorem transact_of_read (h : wordWrite t = false) (s : State) : transact c t s = memRead c (wordAddr t) s := by
  simp only [transact, h, Bool.false_eq_true, if_false]

theorem transact_of_write (h : wordWrite t = true) (s : State) :
    transact c t s = memWrite c (wordAddr t) (wordData t) s := by
  simp only [transact, h, if_true]

/-- Every row of the list names the rule the dispatch performs on the words that select it (R64, R75). -/
def RowsFollowBus (c : Config) (l : List TableRow) : Prop :=
  ∀ r ∈ l, ∀ (t : BusWord) (s : State), r.selects t = true → r.rule.perform c (wordAddr t) (wordData t) s = transact c t s

theorem RowsFollowBus.append {l l' : List TableRow} (h : RowsFollowBus c l) (h' : RowsFollowBus c l') :
    RowsFollowBus c (l ++ l') :=
  fun r hr => (List.mem_append.1 hr).elim (h r) (h' r)

section Rows

variable {name : String} {w : Window} {rule : BusRule} {zero one : String × BusRule} {ws : List Window}

theorem RowsFollowBus.readWindow (h : ∀ a d s, w.Contains a → rule.perform c a d s = memRead c a s) :
    RowsFollowBus c (windowRows false name w rule) := fun r hr t s hs => by
  obtain ⟨hw, ha, hrule⟩ := windowRows_selects hr hs
  rw [hrule, h _ _ _ ha, transact_of_read hw]

theorem RowsFollowBus.writeWindow (h : ∀ a d s, w.Contains a → rule.perform c a d s = memWrite c a d s) :
    RowsFollowBus c (windowRows true name w rule) := fun r hr t s hs => by
  obtain ⟨hw, ha, hrule⟩ := windowRows_selects hr hs
  rw [hrule, h _ _ _ ha, transact_of_write hw]

theorem RowsFollowBus.readUnmapped
    (h : ∀ a d s, (∀ w ∈ ws, ¬ w.Contains a) → rule.perform c a d s = memRead c a s) :
    RowsFollowBus c (unmappedRows false ws rule) := fun r hr t s hs => by
  obtain ⟨hw, ha, hrule⟩ := unmappedRows_selects hr hs
  rw [hrule, h _ _ _ ha, transact_of_read hw]

theorem RowsFollowBus.writeUnmapped
    (h : ∀ a d s, (∀ w ∈ ws, ¬ w.Contains a) → rule.perform c a d s = memWrite c a d s) :
    RowsFollowBus c (unmappedRows true ws rule) := fun r hr t s hs => by
  obtain ⟨hw, ha, hrule⟩ := unmappedRows_selects hr hs
  rw [hrule, h _ _ _ ha, transact_of_write hw]

theorem RowsFollowBus.readSerial
    (h : ∀ a d s, w.Contains a →
      (if (a.toNat - w.lo).testBit 0 then one.2 else zero.2).perform c a d s = memRead c a s) :
    RowsFollowBus c (serialRows false name w zero one) := fun r hr t s hs => by
  obtain ⟨hw, ha, hrule⟩ := serialRows_selects hr hs
  rw [hrule, h _ _ _ ha, transact_of_read hw]

theorem RowsFollowBus.writeSerial
    (h : ∀ a d s, w.Contains a →
      (if (a.toNat - w.lo).testBit 0 then one.2 else zero.2).perform c a d s = memWrite c a d s) :
    RowsFollowBus c (serialRows true name w zero one) := fun r hr t s hs => by
  obtain ⟨hw, ha, hrule⟩ := serialRows_selects hr hs
  rw [hrule, h _ _ _ ha, transact_of_write hw]

end Rows

/-- The register an offset selects performs the serial read of that select (R100, R103, R104). -/
theorem perform_serialRead (c : Config) (b : Bool) (a : Addr) (d : Byte) (s : State) :
    (if b then BusRule.receiveRead else .statusRead).perform c a d s = serialRead c b s := by
  cases b <;> rfl

/-- The register an offset selects performs the serial write of that select (R100, R105, R106). -/
theorem perform_serialWrite (c : Config) (b : Bool) (a : Addr) (d : Byte) (s : State) :
    (if b then BusRule.transmitWrite else .controlWrite).perform c a d s = serialWrite b d s := by
  cases b <;> rfl

theorem regeneratedReads_followBus (hm : c.map.WellFormed) : RowsFollowBus c (regeneratedReads c.map) := by
  refine .append (.append (.append (.append (.append (.append (.append (.append (.append ?ram ?romA) ?romMid) ?romKlo) ?romKhi)
    ?vid) ?kbd) ?nat) ?leg) ?unmapped
  case ram => exact .readWindow fun a d s ha => (memRead_of_ramW ha s).symm
  case romA => exact .readWindow fun a d s ha => (memRead_of_rom hm (.inl ha) s).symm
  case romMid => exact .readWindow fun a d s ha => (memRead_of_rom hm (.inr (.inl ha)) s).symm
  case romKlo => exact .readWindow fun a d s ha => (memRead_of_rom hm (.inr (.inr (.inl ha))) s).symm
  case romKhi => exact .readWindow fun a d s ha => (memRead_of_rom hm (.inr (.inr (.inr ha))) s).symm
  case vid => exact .readWindow fun a d s ha => (memRead_of_vidW hm ha s).symm
  case kbd => exact .readWindow fun a d s ha => (memRead_of_kbdW hm ha s).symm
  case nat =>
    exact .readSerial fun a d s ha =>
      (perform_serialRead c _ a d s).trans (memRead_of_serial (targets_of_serNat hm ha).1 s).symm
  case leg =>
    exact .readSerial fun a d s ha =>
      (perform_serialRead c _ a d s).trans (memRead_of_serial (targets_of_serLeg hm ha).1 s).symm
  case unmapped =>
    exact .readUnmapped fun a d s ha => (memRead_of_readTarget_none (readTarget_eq_none_of_readWindows ha) s).symm

theorem regeneratedWrites_followBus (hm : c.map.WellFormed) : RowsFollowBus c (regeneratedWrites c.map) := by
  refine .append (.append (.append (.append (.append (.append (.append (.append (.append (.append ?ram ?romA) ?romMid) ?romKlo)
    ?romKhi) ?vid) ?kbd) ?unused) ?nat) ?leg) ?unmapped
  case ram => exact .writeWindow fun a d s ha => (memWrite_of_ramW ha d s).symm
  case romA => exact .writeWindow fun a d s ha => (memWrite_of_rom hm (.inl ha) d s).symm
  case romMid => exact .writeWindow fun a d s ha => (memWrite_of_rom hm (.inr (.inl ha)) d s).symm
  case romKlo => exact .writeWindow fun a d s ha => (memWrite_of_rom hm (.inr (.inr (.inl ha))) d s).symm
  case romKhi => exact .writeWindow fun a d s ha => (memWrite_of_rom hm (.inr (.inr (.inr ha))) d s).symm
  case vid => exact .writeWindow fun a d s ha => (memWrite_of_vidW hm ha d s).symm
  case kbd => exact .writeWindow fun a d s ha => (memWrite_of_kbdW hm ha d s).symm
  case unused => exact .writeWindow fun a d s ha => (memWrite_of_unused hm ha d s).symm
  case nat =>
    exact .writeSerial fun a d s ha =>
      (perform_serialWrite c _ a d s).trans (memWrite_of_serial (targets_of_serNat hm ha).2 d s).symm
  case leg =>
    exact .writeSerial fun a d s ha =>
      (perform_serialWrite c _ a d s).trans (memWrite_of_serial (targets_of_serLeg hm ha).2 d s).symm
  case unmapped =>
    exact .writeUnmapped fun a d s ha => (memWrite_of_writeTarget_none (writeTarget_eq_none_iff.2 ha) d s).symm

theorem regeneratedTable_followBus (hm : c.map.WellFormed) : RowsFollowBus c (regeneratedTable c.map) :=
  (regeneratedReads_followBus hm).append (regeneratedWrites_followBus hm)

theorem tableStep_eq_busStep (hm : c.map.WellFormed) (s : State) : tableStep c s = busStep c s := by
  unfold tableStep busStep
  cases s.agenda with
  | nil => rfl
  | cons e rest =>
    cases e with
    | host h => rfl
    | bus t =>
      obtain ⟨r, hr⟩ := Option.isSome_iff_exists.1 (List.find?_isSome.2 (regeneratedTable_selects c.map t))
      have hperform := regeneratedTable_followBus hm r (List.mem_of_find?_eq_some hr) t (s.beginTransaction rest)
        (List.find?_some (p := fun r : TableRow => r.selects t) hr)
      simp only [lookupRow, hr, hperform]

end Regenerated

/-- Settles O60: the counts of the table's parts add up to one, since the windows are disjoint, and every row follows the bus. -/
theorem regeneratedTableFollowsTheBusRules : Obligations.RegeneratedTableFollowsTheBusRules := fun _ hc =>
  ⟨fun t => List.countP_eq_length_filter.symm.trans (regeneratedTable_count hc.map t), tableStep_eq_busStep hc.map⟩

end Sys2Proof.Machine
end

section
/-! The opcode table and the decoder (30_encoding.md R60 to R66). The table is the regenerated one of the standard map row for row,
so a word selects one of its rows, the decoder takes that row, and the instruction it builds follows the bus. -/

namespace Sys2Proof.Machine

open Sys2Proof

section OpcodeTable

variable {t : BusWord} {i : Instr}

/-- A word selects as many rows of the opcode table as of the table regenerated from the standard map (R65). -/
theorem opcodeTable_count (t : BusWord) : opcodeTable.countP (fun r => r.selects t) = 1 := by
  have hcount := congrArg (List.countP fun x : BusWord × BusWord => t &&& x.1 == x.2) regeneratedTable_standard_fields
  rw [List.countP_map, List.countP_map] at hcount
  exact hcount.symm.trans (regeneratedTable_count standardConfigurationIsWellFormed.map t)

/-- A word selects no two rows (R64). -/
theorem row_unique {r r' : OpcodeRow} (hr : r ∈ opcodeTable) (hr' : r' ∈ opcodeTable) (hs : r.selects t = true)
    (hs' : r'.selects t = true) : r = r' := by
  have hone := opcodeTable_count t
  rw [List.countP_eq_length_filter, List.length_eq_one_iff] at hone
  obtain ⟨x, hx⟩ := hone
  have h : r ∈ opcodeTable.filter fun r => r.selects t := List.mem_filter.2 ⟨hr, hs⟩
  have h' : r' ∈ opcodeTable.filter fun r => r.selects t := List.mem_filter.2 ⟨hr', hs'⟩
  rw [hx, List.mem_singleton] at h h'
  rw [h, h']

theorem decode_of_selects {r : OpcodeRow} (hr : r ∈ opcodeTable) (hs : r.selects t = true) :
    decode t = .ok (r.build (wordAddr t) (wordData t)) := by
  obtain ⟨r', hfind⟩ := Option.isSome_iff_exists.1 (List.find?_isSome (p := fun r => OpcodeRow.selects r t).2 ⟨r, hr, hs⟩)
  have hs' := List.find?_some (p := fun r : OpcodeRow => r.selects t) hfind
  rw [decode, hfind, row_unique hr (List.mem_of_find?_eq_some hfind) hs hs']

/-- What the decoder answers is built by the row the word selects (R64). -/
theorem exists_row_of_decode (h : decode t = .ok i) :
    ∃ r ∈ opcodeTable, r.selects t = true ∧ i = r.build (wordAddr t) (wordData t) := by
  obtain ⟨r, hr, hs⟩ := opcodeTable_selects t
  exact ⟨r, hr, hs, Except.ok.inj (h.symm.trans (decode_of_selects hr hs))⟩

open Laws.Encoding in
/-- Every well-formed instruction's word is selected by a row that builds the instruction from it. -/
theorem encoding_statement : ∀ i : Instr, Statement i
  | .rdRam a => rdRam a | .rdRomA a => rdRomA a | .rdRomMidF100 a => rdRomMidF100 a | .rdRomMidF200 a => rdRomMidF200 a
  | .rdRomMidF400 a => rdRomMidF400 a | .rdRomKlo a => rdRomKlo a | .rdRomKhiFD00 a => rdRomKhiFD00 a
  | .rdRomKhiFE00 a => rdRomKhiFE00 a | .rdVid a => rdVid a | .rdKbd a => rdKbd a
  | .rdSerNatStatus a => rdSerNatStatus a | .rdSerNatRxdata a => rdSerNatRxdata a
  | .rdSerLegStatus a => rdSerLegStatus a | .rdSerLegRxdata a => rdSerLegRxdata a
  | .rdUnmapped8000 a => rdUnmapped8000 a | .rdUnmappedC000 a => rdUnmappedC000 a
  | .rdUnmappedD800 a => rdUnmappedD800 a | .rdUnmappedDC00 a => rdUnmappedDC00 a
  | .rdUnmappedDE00 a => rdUnmappedDE00 a | .rdUnmappedE000 a => rdUnmappedE000 a | .wrRam a d => wrRam a d
  | .wrRomA a d => wrRomA a d | .wrRomMidF100 a d => wrRomMidF100 a d | .wrRomMidF200 a d => wrRomMidF200 a d
  | .wrRomMidF400 a d => wrRomMidF400 a d | .wrRomKlo a d => wrRomKlo a d | .wrRomKhiFD00 a d => wrRomKhiFD00 a d
  | .wrRomKhiFE00 a d => wrRomKhiFE00 a d | .wrVid a d => wrVid a d | .wrKbd a d => wrKbd a d
  | .wrUnused a d => wrUnused a d | .wrSerNatControl a d => wrSerNatControl a d
  | .wrSerNatTxdata a d => wrSerNatTxdata a d | .wrSerLegControl a d => wrSerLegControl a d
  | .wrSerLegTxdata a d => wrSerLegTxdata a d | .wrUnmapped8000 a d => wrUnmapped8000 a d
  | .wrUnmappedC000 a d => wrUnmappedC000 a d | .wrUnmappedD800 a d => wrUnmappedD800 a d
  | .wrUnmappedDC00 a d => wrUnmappedDC00 a d | .wrUnmappedDE00 a d => wrUnmappedDE00 a d
  | .wrUnmappedE001 a d => wrUnmappedE001 a d | .wrUnmappedE002 a d => wrUnmappedE002 a d
  | .wrUnmappedE004 a d => wrUnmappedE004 a d | .wrUnmappedE008 a d => wrUnmappedE008 a d
  | .wrUnmappedE010 a d => wrUnmappedE010 a d | .wrUnmappedE020 a d => wrUnmappedE020 a d
  | .wrUnmappedE040 a d => wrUnmappedE040 a d | .wrUnmappedE080 a d => wrUnmappedE080 a d
  | .wrUnmappedE100 a d => wrUnmappedE100 a d | .wrUnmappedE200 a d => wrUnmappedE200 a d
  | .wrUnmappedE400 a d => wrUnmappedE400 a d | .wrUnmappedE800 a d => wrUnmappedE800 a d

end OpcodeTable

section WellFormed

variable {r : OpcodeRow} {t : BusWord}

/-- Whatever word selects the row, the instruction it builds from the word is well formed. -/
def RowFits (r : OpcodeRow) : Prop :=
  ∀ t : BusWord, r.selects t = true → (r.build (wordAddr t) (wordData t)).wellFormed = true

/-- The aligned block of `2 ^ bits` addresses that holds the address field of the row's pattern. -/
def rowBlock (r : OpcodeRow) (bits : Nat) : Block := ⟨r.pattern.toNat / 2 ^ 8 % 2 ^ 16 / 2 ^ bits * 2 ^ bits, bits⟩

theorem rowBlock_ok (r : OpcodeRow) {bits : Nat} (h : bits ≤ 16) : (rowBlock r bits).Ok where
  aligned := Nat.mul_mod_left _ _
  bits := h
  inSpace := by
    simp only [rowBlock]
    generalize r.pattern.toNat / 2 ^ 8 = n
    interval_cases bits <;> omega

/-- The two rows are selected by the same words. -/
abbrev SameSelection (r : OpcodeRow) (q : TableRow) : Prop := r.pattern = q.pattern ∧ r.mask = q.mask

theorem selects_of_sameSelection {q : TableRow} (h : SameSelection r q) (hs : r.selects t = true) : q.selects t = true := by
  obtain ⟨hpattern, hmask⟩ := h
  rwa [OpcodeRow.selects, hpattern, hmask] at hs

/-- A row of a block, whose instruction may take every address of the block. -/
theorem RowFits.block (bits : Nat) (hbits : bits ≤ 16 := by decide)
    (hrow : SameSelection r (blockRow (r.pattern.getLsbD 24) "" false .ramRead (rowBlock r bits)) := by decide)
    (hwf : ∀ a d, (r.build a d).wellFormed = inBlock (rowBlock r bits).window.lo (rowBlock r bits).window.hi a := by
      exact fun _ _ => rfl) : RowFits r := fun t hs => by
  obtain ⟨-, hblock⟩ := (blockRow_selects (rowBlock_ok r hbits) _ _ _ _ t).1 (selects_of_sameSelection hrow hs)
  rw [hwf, inBlock_iff]
  exact hblock

/-- A serial row, whose instruction may take every address of the block with the row's select bit. -/
theorem RowFits.serial (bits : Nat) (hbits : bits ≤ 16 ∧ bits ≠ 0 := by decide)
    (hrow : SameSelection r
      (serialRow (r.pattern.getLsbD 24) "" false .ramRead (rowBlock r bits) (r.pattern.getLsbD 8)) := by decide)
    (hwf : ∀ a d, (r.build a d).wellFormed =
      (inBlock (rowBlock r bits).window.lo (rowBlock r bits).window.hi a &&
        bif r.pattern.getLsbD 8 then a.getLsbD 0 else !a.getLsbD 0) := by exact fun _ _ => rfl) : RowFits r := fun t hs => by
  have hbit : r.pattern.getLsbD 8 ∈ (rowBlock r bits).bitValues := by
    rw [Block.bitValues, if_neg (show (rowBlock r bits).bits ≠ 0 from hbits.2)]
    cases r.pattern.getLsbD 8 <;> decide
  obtain ⟨⟨-, hblock⟩, hselect⟩ :=
    (serialRow_selects (rowBlock_ok r hbits.1) _ _ _ _ hbit t).1 (selects_of_sameSelection hrow hs)
  rw [hwf, ← hselect, Bool.and_eq_true, inBlock_iff]
  exact ⟨hblock, by cases (wordAddr t).getLsbD 0 <;> rfl⟩

theorem opcodeTable_fits : ∀ r ∈ opcodeTable, RowFits r := by
  simp only [opcodeTable, readRows, writeRows, List.cons_append, List.nil_append, List.forall_mem_cons]
  exact
    ⟨.block 15, .block 13, .block 8, .block 9, .block 10, .block 10, .block 8, .block 9, .block 11, .block 8,
    .serial 8, .serial 8, .serial 8, .serial 8, .block 13, .block 12, .block 10, .block 9, .block 8, .block 12,
    .block 15, .block 13, .block 8, .block 9, .block 10, .block 10, .block 8, .block 9, .block 11, .block 8, .block 0,
    .serial 8, .serial 8, .serial 8, .serial 8, .block 13, .block 12, .block 10, .block 9, .block 8, .block 0,
    .block 1, .block 2, .block 3, .block 4, .block 5, .block 6, .block 7, .block 8, .block 9, .block 10,
    .block 11, nofun⟩

/-- The word of the instruction a row builds: the fields it was built from, the data of a read replaced by 0 (R60). -/
theorem opcodeTable_encode : ∀ r ∈ opcodeTable, ∀ a d,
    encode (r.build a d) = packWord (r.build a d).isWrite a (if (r.build a d).isWrite then d else 0) := by
  simp only [opcodeTable, readRows, writeRows, List.cons_append, List.nil_append, List.forall_mem_cons]
  simp [encode, Instr.isWrite]

/-- The canonical word of a read is the word with its data field cleared (R60). -/
theorem packWord_clearData (h : wordWrite t = false) : packWord false (wordAddr t) 0 = t &&& 0x1FFFF00 := by
  have hmask : (0x1FFFF00 : BusWord) = BitVec.allOnes 25 <<< 8 := by decide
  have hbit : t.toNat / 2 ^ 24 = 0 := by rw [← wordWrite_toNat, h]; rfl
  apply BitVec.eq_of_toNat_eq
  rw [hmask, and_highMask, packWord_toNat, wordAddr_toNat, BitVec.toNat_shiftLeft, BitVec.toNat_ushiftRight,
    Nat.shiftLeft_eq, Nat.shiftRight_eq_div_pow]
  have := t.isLt
  simp only [Bool.toNat_false, BitVec.ofNat_eq_ofNat, BitVec.toNat_ofNat]
  omega

end WellFormed

/-- Settles O1: the row that selects the word of a well-formed instruction, and builds the instruction from it, is the only row the
word selects, so it is the one the decoder takes. -/
theorem decodeOfEncodeIsIdentity : Obligations.DecodeOfEncodeIsIdentity := fun i hi => by
  obtain ⟨r, hr, hs, hbuild⟩ := encoding_statement i hi
  rw [decode_of_selects hr hs, hbuild]

/-- Settles O3. -/
theorem everyWordSelectsExactlyOneRow : Obligations.EveryWordSelectsExactlyOneRow := fun t =>
  List.countP_eq_length_filter.symm.trans (opcodeTable_count t)

/-- Settles O2: the row a word selects fixes its direction and its address block, and the instruction it builds keeps the
fields. -/
theorem everyWordIsAWellFormedTransaction : Obligations.EveryWordIsAWellFormedTransaction := fun t => by
  obtain ⟨r, hr, hs⟩ := opcodeTable_selects t
  have hw := isWrite_build_of_selects hr hs (wordAddr t) (wordData t)
  refine ⟨_, decode_of_selects hr hs, opcodeTable_fits r hr t hs, hw, ?_⟩
  rw [opcodeTable_encode r hr, hw]
  cases h : wordWrite t
  · exact packWord_clearData h
  · simpa only [h, if_true] using packWord_fields t

/-- Settles O59: the two tables have the same masks and patterns, row for row. -/
theorem standardMapRegeneratesTheOpcodeTable : Obligations.StandardMapRegeneratesTheOpcodeTable := by
  have h := congrArg (List.map Prod.swap) regeneratedTable_standard_fields
  rwa [List.map_map, List.map_map] at h

/-- Settles O4: the decoder, run on the words of V2. -/
theorem vectorWordsDecodeAsListed : Obligations.VectorWordsDecodeAsListed :=
  ⟨rfl, rfl, rfl, rfl, rfl, rfl, rfl, rfl, rfl, rfl, rfl, rfl, rfl, rfl⟩

end Sys2Proof.Machine
end

section
/-! The table machine against the rules (30_encoding.md R64, 40_bus.md R75): each row's instruction performs the rule the
regenerated standard table names in that row, so a decoded word does what the address dispatch does with it. -/

namespace Sys2Proof.Machine

open Sys2Proof

/-- The rules of the opcode table's rows, in its order (R63, R64). -/
def standardRules : List BusRule :=
  [[.ramRead], List.replicate 7 .romRead, [.videoRead, .keyboardRead, .statusRead, .receiveRead, .statusRead, .receiveRead],
    List.replicate 6 .unmappedRead, [.ramWrite], List.replicate 7 .romWrite,
    [.videoWrite, .keyboardWrite, .unusedWrite, .controlWrite, .transmitWrite, .controlWrite, .transmitWrite],
    List.replicate 17 .unmappedWrite].flatten

theorem regeneratedTable_standard_rules : (regeneratedTable AddressMap.standard).map (fun q => q.rule) = standardRules := by
  decide

/-- The row's instruction does what the rule says (R63). -/
def Implements (rule : BusRule) (r : OpcodeRow) : Prop :=
  ∀ a d s, exec (r.build a d) s = .next (rule.perform Config.standard a d s)

/-- Row for row, an instruction's meaning is the rule of its row (R64). -/
theorem opcodeTable_implements : List.Forall₂ Implements standardRules opcodeTable := by
  repeat refine .cons (fun _ _ _ => rfl) ?_
  exact .nil

/-- Every row of the opcode table stands in the table regenerated from the standard map, with the rule its instruction performs
(R65). -/
theorem exists_regenerated_row {r : OpcodeRow} (hr : r ∈ opcodeTable) :
    ∃ q ∈ regeneratedTable AddressMap.standard, SameSelection r q ∧ Implements q.rule r := by
  obtain ⟨n, hn, rfl⟩ := List.mem_iff_getElem.1 hr
  have hrules : List.Forall₂ (fun q => Implements q.rule) (regeneratedTable AddressMap.standard) opcodeTable := by
    rw [← List.forall₂_map_left_iff, regeneratedTable_standard_rules]
    exact opcodeTable_implements
  have hq : n < (regeneratedTable AddressMap.standard).length := hrules.length_eq ▸ hn
  refine ⟨_, List.getElem_mem hq, ?_, hrules.get hq hn⟩
  have hfields := List.getElem_of_eq regeneratedTable_standard_fields (i := n) (by simpa using hq)
  simp only [List.getElem_map, Prod.mk.injEq] at hfields
  exact ⟨hfields.2.symm, hfields.1.symm⟩

theorem exec_eq_transact {t : BusWord} {i : Instr} (h : decode t = .ok i) (s : State) :
    exec i s = .next (transact Config.standard t s) := by
  obtain ⟨r, hr, hs, rfl⟩ := exists_row_of_decode h
  obtain ⟨q, hq, hsame, himpl⟩ := exists_regenerated_row hr
  rw [himpl, regeneratedTable_followBus standardConfigurationIsWellFormed.map q hq t s (selects_of_sameSelection hsame hs)]

/-- Settles O5: the row's instruction performs the rule of its row, which is the rule of the word's target. -/
theorem decodedInstructionFollowsTheBusRules : Obligations.DecodedInstructionFollowsTheBusRules :=
  fun _ _ s h => exec_eq_transact h s

/-- Settles O6: every word decodes, and the decoded instruction follows the bus rules. -/
theorem tableMachineEqualsBusRuleMachine : Obligations.TableMachineEqualsBusRuleMachine := fun s => by
  cases hs : s.agenda with
  | nil => simp only [step, busStep, hs]
  | cons e rest =>
    cases e with
    | host h => simp only [step, busStep, hs]
    | bus t =>
      obtain ⟨i, hd, -⟩ := exists_decode_isWrite t
      rw [step_of_bus hs hd, exec_eq_transact hd]
      simp only [busStep, hs]

/-- Settles O7. -/
theorem stepRunsTheDecodedInstruction : Obligations.StepRunsTheDecodedInstruction := fun _ _ _ _ hs hd => step_of_bus hs hd

/-- Settles O8. -/
theorem nothingHappensBetweenTransactions : Obligations.NothingHappensBetweenTransactions := fun s hs => by
  simp only [step, hs]

/-- Settles O9: a word of 25 bits is kept whole by any wider presentation, and it decodes to its instruction. -/
theorem placedWordRunsNext : Obligations.PlacedWordRunsNext := fun s i n hi hn => by
  have hword : BitVec.ofNat 25 ((encode i).toNat % 2 ^ n) = encode i := by
    rw [Nat.mod_eq_of_lt ((encode i).isLt.trans_le (Nat.pow_le_pow_right two_pos hn)), BitVec.ofNat_toNat,
      BitVec.setWidth_eq]
  have hagenda : (s.withFetchWord n (encode i).toNat).agenda = .bus (encode i) :: s.agenda := by
    rw [withFetchWord_agenda, hword]
  exact step_of_bus hagenda (decodeOfEncodeIsIdentity i hi)

end Sys2Proof.Machine
end

section
/-! The keyboard matrix controller (42_keyboard.md R120 to R131): the two keyboard-window transactions as one update of the state,
the scan value and a press bit by bit, and the release policy over any number of scans. -/

namespace Sys2Proof.Machine

open Sys2Proof

section Access

variable {c : Config} {s : State}

theorem pollKeyboard_of_none (h : pendingKey c s = none) : pollKeyboard c s = s.kbd := by simp only [pollKeyboard, h]

theorem pollKeyboard_of_some {p : KeyPos} (h : pendingKey c s = some p) : pollKeyboard c s = press p s.kbd := by
  simp only [pollKeyboard, h]

/-- A scan of the keyboard: the value is taken, then the release policy runs on it (R126). -/
def scanKeyboard (c : Config) (k : Keyboard) : Keyboard := autoRelease c (scanValue k) k

/-- A scan read takes a byte off the queue, presses its key and scans (R126). -/
theorem kbdRead_eq (c : Config) (s : State) :
    kbdRead c s = { s with
      inQ := s.inQ.tail, kbd := scanKeyboard c (pollKeyboard c s), result := some (scanValue (pollKeyboard c s)) } := by
  rw [kbdRead, kbdPoll_eq]
  rfl

/-- A row-select write takes a byte off the queue, presses its key and stores its byte (R131). -/
theorem kbdWrite_eq (c : Config) (d : Byte) (s : State) :
    kbdWrite c d s = { s with inQ := s.inQ.tail, kbd := { pollKeyboard c s with rowsel := d }, result := none } := by
  rw [kbdWrite, kbdPoll_eq]
  rfl

end Access

/-- Settles O24. -/
theorem keyboardScanRead : Obligations.KeyboardScanRead := fun _ s =>
  ⟨pollKeyboard Config.standard s, pollKeyboard_of_none, fun _ => pollKeyboard_of_some, congrArg _ (kbdRead_eq _ s)⟩

/-- Settles O25: a press leaves the detection count and restarts the read counter. -/
theorem keyboardRowSelectWrite : Obligations.KeyboardRowSelectWrite := fun _ d s => by
  refine ⟨pollKeyboard Config.standard s, pollKeyboard_of_none, fun _ => pollKeyboard_of_some,
    congrArg _ (kbdWrite_eq _ d s), ?_⟩
  cases h : pendingKey Config.standard s with
  | none => rw [pollKeyboard_of_none h]; exact ⟨rfl, .inl rfl⟩
  | some p => rw [pollKeyboard_of_some h]; exact ⟨rfl, .inr rfl⟩

section Bits

variable {k : Keyboard}

/-- A bit of the AND of the selected rows of a list, on top of a value. -/
theorem getLsbD_foldl_rows (l : List (Fin 8)) (v : Byte) (j : Nat) :
    (l.foldl (fun v (r : Fin 8) => if k.rowsel.getLsbD r.val then v else v &&& k.rows[r]) v).getLsbD j = true ↔
      v.getLsbD j = true ∧ ∀ r ∈ l, k.rowsel.getLsbD r.val = false → (k.rows[r]).getLsbD j = true := by
  induction l generalizing v with
  | nil => simp only [List.foldl_nil, List.not_mem_nil, false_implies, implies_true, and_true]
  | cons r l ih =>
    rw [List.foldl_cons, ih, List.forall_mem_cons]
    cases k.rowsel.getLsbD r.val
    · simp only [Bool.false_eq_true, if_false, BitVec.getLsbD_and, Bool.and_eq_true, true_implies, and_assoc]
    · simp only [if_true, reduceCtorEq, false_implies, true_and]

theorem scanValue_getLsbD (k : Keyboard) (j : Fin 8) :
    (scanValue k).getLsbD j.val = true ↔
      ∀ r : Fin 8, k.rowsel.getLsbD r.val = false → (k.rows[r]).getLsbD j.val = true := by
  have hall : ∀ r : Fin 8, r ∈ rowNumbers := by decide
  have htop : ∀ j : Fin 8, (0xFF : Byte).getLsbD j.val = true := by decide
  rw [scanValue, getLsbD_foldl_rows]
  simp only [htop, hall, true_and, true_implies]

/-- With every key released every scan reads 0xFF (R125). -/
theorem scanValue_of_released (h : k.rows = Vector.replicate 8 0xFF) : scanValue k = 0xFF := by
  have htop : ∀ j : Fin 8, (0xFF : Byte).getLsbD j.val = true := by decide
  refine BitVec.eq_of_getLsbD_eq fun j hj => ?_
  rw [htop ⟨j, hj⟩, (scanValue_getLsbD k ⟨j, hj⟩).2]
  intro r _
  simp only [h, Fin.getElem_fin, Vector.getElem_replicate]
  exact htop ⟨j, hj⟩

theorem oneBit_getLsbD (i j : Fin 8) : (1#8 <<< i.val).getLsbD j.val = (j == i) := by
  revert i j
  decide

theorem press_getLsbD (p : KeyPos) (k : Keyboard) (r j : Fin 8) :
    ((press p k).rows[r]).getLsbD j.val = ((k.rows[r]).getLsbD j.val && !(r == p.row && j == p.col)) := by
  simp only [press, Fin.getElem_fin, Vector.getElem_set]
  by_cases h : p.row = r
  · subst h
    simp only [if_true, BitVec.getLsbD_and, BitVec.getLsbD_not, oneBit_getLsbD, j.isLt, decide_true, Bool.true_and,
      beq_self_eq_true]
  · have hval : p.row.val ≠ r.val := fun e => h (Fin.ext e)
    simp only [hval, if_false, beq_eq_false_iff_ne.2 (Ne.symm h), Bool.false_and, Bool.not_false, Bool.and_true]

end Bits

/-- Settles O26. -/
theorem scanShowsPressedKeysOfSelectedRows : Obligations.ScanShowsPressedKeysOfSelectedRows := scanValue_getLsbD

/-- Settles O28: the rows bit by bit; the rest of a press is its definition. -/
theorem pressClearsOneKey : Obligations.PressClearsOneKey := fun p k => ⟨press_getLsbD p k, rfl, rfl, rfl, rfl⟩

/-- Settles O27: the tests of `Normalize` as comparisons of numbers. -/
theorem normalizeByCases : Obligations.NormalizeByCases := fun c b => by
  have heq : ∀ x : Byte, b = x ↔ b.toNat = x.toNat := fun x => BitVec.toNat_inj.symm
  simp only [normalizeKey, BitVec.le_def, heq, BitVec.ofNat_eq_ofNat, BitVec.toNat_ofNat, Nat.reducePow, Nat.reduceMod]
  refine ⟨fun h => ?_, fun h => ?_, fun h => ?_, fun h1 h2 h3 h4 h5 => ?_⟩
  · rw [if_pos h]
    bv_omega
  · rw [if_neg (by omega), if_pos h]
  · rw [if_neg (by omega), if_neg (by omega), if_pos h]
  · rw [if_neg h1, if_neg (by omega), if_neg (by omega)]

section Release

variable {c : Config} {k : Keyboard} {s : State} {v : Byte}

theorem KeyboardOk.press {p : KeyPos} (hc : c.WellFormed) (hk : KeyboardOk c k) : KeyboardOk c (press p k) := by
  have := hc.window
  obtain ⟨-, hdet, -, -⟩ := hk
  exact ⟨by rw [press_rse]; omega, hdet, nofun, fun _ => by rw [press_rse]; omega⟩

/-- A poll presses one key or none (R123). -/
theorem KeyboardOk.poll (hc : c.WellFormed) (hs : KeyboardOk c s.kbd) : KeyboardOk c (pollKeyboard c s) := by
  cases h : pendingKey c s with
  | none => rwa [pollKeyboard_of_none h]
  | some p => rw [pollKeyboard_of_some h]; exact hs.press hc

/-- The detection count a scan of value `v` reaches after a press: a key seen within the detection window is counted (R128). -/
def detAfter (c : Config) (v : Byte) (k : Keyboard) : Nat :=
  k.det + (if v ≠ 0xFF ∧ min (k.rse + 1) c.backupReads ≤ c.detWindow then 1 else 0)

theorem detAfter_of_seen (hv : v ≠ 0xFF) (hw : k.rse + 1 ≤ c.detWindow) : detAfter c v k = k.det + 1 := by
  rw [detAfter, if_pos ⟨hv, (Nat.min_le_left _ _).trans hw⟩]

theorem detAfter_of_not_seen (h : v = 0xFF ∨ c.detWindow < min (k.rse + 1) c.backupReads) : detAfter c v k = k.det := by
  rw [detAfter, if_neg fun hs => h.elim hs.1 hs.2.not_gt, Nat.add_zero]

/-- A scan after a press that reaches a threshold releases every key (R128). -/
theorem autoRelease_of_threshold (hp : k.phase = .pressedRecently)
    (h : c.detCount ≤ detAfter c v k ∨ c.backupReads ≤ k.rse + 1) :
    autoRelease c v k = forcedRelease { k with rse := min (k.rse + 1) c.backupReads } := by
  rw [autoRelease_pressed c v hp]
  exact if_pos h

/-- A scan after a press that reaches no threshold only moves the counters (R128). -/
theorem autoRelease_of_no_threshold (hp : k.phase = .pressedRecently) (hd : detAfter c v k < c.detCount)
    (hr : k.rse + 1 < c.backupReads) : autoRelease c v k = { k with rse := k.rse + 1, det := detAfter c v k } := by
  rw [autoRelease_pressed c v hp]
  refine (if_neg (not_or.2 ⟨hd.not_ge, hr.not_ge⟩)).trans ?_
  simp only [detAfter, Nat.min_eq_left hr.le]

/-- The release policy keeps the counters in range: a threshold reached is a release, which restarts the detection count (R128). -/
theorem KeyboardOk.autoRelease (hc : c.WellFormed) (hk : KeyboardOk c k) : KeyboardOk c (autoRelease c v k) := by
  obtain ⟨-, hdet, hidle, -⟩ := hk
  have hmin := Nat.min_le_right (k.rse + 1) c.backupReads
  cases hp : k.phase with
  | idle =>
    rw [autoRelease_idle c v hp]
    exact ⟨hmin, hdet, hidle, fun e => absurd (hp.symm.trans e) nofun⟩
  | pressedRecently =>
    by_cases h : c.detCount ≤ detAfter c v k ∨ c.backupReads ≤ k.rse + 1
    · rw [autoRelease_of_threshold hp h]
      exact ⟨hmin, hc.count, fun _ => rfl, nofun⟩
    · obtain ⟨hd, hr⟩ := not_or.1 h
      rw [autoRelease_of_no_threshold hp (not_le.1 hd) (not_le.1 hr)]
      exact ⟨Nat.le_of_not_le hr, not_le.1 hd, fun e => absurd (hp.symm.trans e) nofun, fun _ => not_le.1 hr⟩

/-- A keyboard every key of which has been released. -/
def Released (k : Keyboard) : Prop := k.phase = .idle ∧ k.rows = Vector.replicate 8 0xFF

/-- After a press a scan either releases every key or counts its read and stays short of the backup threshold (R128). -/
theorem autoRelease_pressed_cases (c : Config) (v : Byte) (hp : k.phase = .pressedRecently) :
    Released (autoRelease c v k) ∨
      (autoRelease c v k).phase = .pressedRecently ∧ (autoRelease c v k).rse = k.rse + 1 ∧ k.rse + 1 < c.backupReads := by
  by_cases h : c.detCount ≤ detAfter c v k ∨ c.backupReads ≤ k.rse + 1
  · rw [autoRelease_of_threshold hp h]
    exact .inl ⟨rfl, rfl⟩
  · obtain ⟨hd, hr⟩ := not_or.1 h
    rw [autoRelease_of_no_threshold hp (not_le.1 hd) (not_le.1 hr)]
    exact .inr ⟨hp, rfl, not_le.1 hr⟩

/-- Each scan uses up one of the reads that remain to the backup threshold, and the last one releases (R128). -/
theorem exists_released_within (hc : c.WellFormed) (sels : List Byte) (hk : KeyboardOk c k) (hp : k.phase = .pressedRecently)
    (hlen : c.backupReads - k.rse ≤ sels.length) :
    ∃ n, n ≤ c.backupReads - k.rse ∧ Released ((sels.take n).foldl (scanUnder c) k) := by
  have hrse : k.rse < c.backupReads := by
    obtain ⟨-, -, -, hreads⟩ := hk
    exact hreads hp
  induction sels generalizing k with
  | nil => simp only [List.length_nil] at hlen; omega
  | cons sel sels ih =>
    rw [List.length_cons] at hlen
    rcases autoRelease_pressed_cases (k := { k with rowsel := sel }) c (scanValue { k with rowsel := sel }) hp with h | h
    · exact ⟨1, by omega, h⟩
    · obtain ⟨hphase, hreads, hlt⟩ := h
      have hreads : (scanUnder c k sel).rse = k.rse + 1 := hreads
      have hlt : k.rse + 1 < c.backupReads := hlt
      obtain ⟨n, hn, hrel⟩ := ih (k := scanUnder c k sel) (KeyboardOk.autoRelease hc hk) hphase (by omega) (by omega)
      exact ⟨n + 1, by omega, hrel⟩

end Release

/-- Settles O31. -/
theorem backupReleaseWithinBackupReads : Obligations.BackupReleaseWithinBackupReads :=
  fun _ _ sels hc hk hp hlen => exists_released_within hc sels hk hp hlen

/-- Settles O29: the release policy at the default thresholds. -/
theorem fastAndBackupRelease : Obligations.FastAndBackupRelease := fun a s hp hn => by
  refine ⟨kbdRead Config.standard s, rfl, ?_⟩
  rw [kbdRead_eq, pollKeyboard_of_none hn]
  refine ⟨rfl, fun h => ?_, fun hv hw hd => ?_, fun h hr hd => ?_⟩
  · refine autoRelease_of_threshold hp (h.imp_left fun ⟨hv, hw, hd⟩ => ?_)
    rwa [detAfter_of_seen hv hw]
  · have hdet := detAfter_of_seen (c := Config.standard) hv hw
    refine (autoRelease_of_no_threshold hp (hdet ▸ hd) (show _ < 100 by omega)).trans ?_
    rw [hdet]
  · have hdet := detAfter_of_not_seen (c := Config.standard) (k := s.kbd) (h.imp_right fun hw => show 10 < min _ 100 by omega)
    refine (autoRelease_of_no_threshold hp (hdet ▸ hd) hr).trans ?_
    rw [hdet]

section Idle

variable {c : Config} {s : State}

theorem pendingKey_of_noKeyQueued (h : NoKeyQueued c s) : pendingKey c s = none := by
  unfold pendingKey
  cases hq : s.inQ with
  | nil => rfl
  | cons b q => exact h b (hq ▸ .head _)

/-- While no key is queued, scan reads only scan the keyboard, and the queue goes on holding no key. -/
theorem kbdRead_iterate (h : NoKeyQueued c s) (n : Nat) :
    NoKeyQueued c ((kbdRead c)^[n] s) ∧ ((kbdRead c)^[n] s).kbd = (scanKeyboard c)^[n] s.kbd := by
  induction n with
  | zero => exact ⟨h, rfl⟩
  | succ n ih =>
    obtain ⟨hq, hk⟩ := ih
    rw [Function.iterate_succ_apply', Function.iterate_succ_apply', kbdRead_eq,
      pollKeyboard_of_none (pendingKey_of_noKeyQueued hq), hk]
    exact ⟨fun b hb => hq b (List.mem_of_mem_tail hb), rfl⟩

/-- What the scan read after `n` of them answers, while no key is queued. -/
theorem kbdRead_iterate_result (h : NoKeyQueued c s) (n : Nat) :
    ((kbdRead c)^[n + 1] s).result = some (scanValue ((scanKeyboard c)^[n] s.kbd)) := by
  obtain ⟨hq, hk⟩ := kbdRead_iterate h n
  rw [Function.iterate_succ_apply', kbdRead_eq, pollKeyboard_of_none (pendingKey_of_noKeyQueued hq), hk]

/-- In phase `Idle` scans move only the read counter (R128). -/
theorem scanKeyboard_iterate_idle {k : Keyboard} (hk : k.phase = .idle) (n : Nat) :
    ((scanKeyboard c)^[n] k).rows = k.rows ∧ ((scanKeyboard c)^[n] k).phase = .idle ∧
      ((scanKeyboard c)^[n] k).det = k.det := by
  induction n with
  | zero => exact ⟨rfl, hk, rfl⟩
  | succ n ih =>
    rw [Function.iterate_succ_apply', scanKeyboard, autoRelease_idle c _ ih.2.1]
    exact ih

end Idle

/-- Settles O32. -/
theorem nothingIsReleasedWhileIdle : Obligations.NothingIsReleasedWhileIdle := fun c s hidle hq n => by
  rw [(kbdRead_iterate hq n).2]
  exact scanKeyboard_iterate_idle hidle n

section Press

variable {c : Config} {k : Keyboard} {p : KeyPos}

theorem ne_top_of_getLsbD {v : Byte} {j : Fin 8} (h : v.getLsbD j.val = false) : v ≠ 0xFF := by
  rintro rfl
  revert j
  decide

/-- A key held in a selected row shows in the scan value (R125). -/
theorem scanValue_held (hsel : k.rowsel.getLsbD p.row.val = false) (hkey : k.rows[p.row].getLsbD p.col.val = false) :
    (scanValue k).getLsbD p.col.val = false := by
  rw [← Bool.not_eq_true, scanValue_getLsbD]
  exact fun h => Bool.noConfusion (hkey.symm.trans (h p.row hsel))

theorem press_holds (p : KeyPos) (k : Keyboard) : (press p k).rows[p.row].getLsbD p.col.val = false := by
  rw [press_getLsbD]
  simp only [beq_self_eq_true, Bool.and_self, Bool.not_true, Bool.and_false]

/-- The keyboard `n` detections after a press. -/
def pressedSeen (p : KeyPos) (k : Keyboard) (n : Nat) : Keyboard := { press p k with rse := n, det := n }

theorem scanValue_pressedSeen (hsel : k.rowsel.getLsbD p.row.val = false) (n : Nat) :
    (scanValue (pressedSeen p k n)).getLsbD p.col.val = false :=
  scanValue_held (k := pressedSeen p k n) hsel (press_holds p k)

theorem detAfter_pressedSeen (hsel : k.rowsel.getLsbD p.row.val = false) {n : Nat} (hn : n + 1 ≤ c.detWindow) :
    detAfter c (scanValue (pressedSeen p k n)) (pressedSeen p k n) = n + 1 :=
  detAfter_of_seen (ne_top_of_getLsbD (scanValue_pressedSeen hsel n)) hn

/-- Until the last detection, the scans after a press count themselves and hold the keys (R128). -/
theorem scanKeyboard_iterate_press (hc : c.WellFormed) (hwin : c.detCount ≤ c.detWindow) (hdet : k.det = 0)
    (hsel : k.rowsel.getLsbD p.row.val = false) {n : Nat} (hn : n < c.detCount) :
    (scanKeyboard c)^[n] (press p k) = pressedSeen p k n := by
  have := hc.window
  induction n with
  | zero => simp only [Function.iterate_zero_apply, pressedSeen, press, hdet]
  | succ n ih =>
    have hseen := detAfter_pressedSeen (c := c) hsel (n := n) (by omega)
    rw [Function.iterate_succ_apply', ih (by omega), scanKeyboard,
      autoRelease_of_no_threshold rfl (hseen ▸ hn) (show n + 1 < _ by omega), hseen]
    rfl

/-- The last detection releases every key (R128). -/
theorem released_after_detCount (hc : c.WellFormed) (hwin : c.detCount ≤ c.detWindow) (hdet : k.det = 0)
    (hsel : k.rowsel.getLsbD p.row.val = false) : Released ((scanKeyboard c)^[c.detCount] (press p k)) := by
  obtain ⟨n, hn⟩ := Nat.exists_eq_add_of_le' hc.count
  have hseen := detAfter_pressedSeen (c := c) hsel (n := n) (by omega)
  rw [hn, Function.iterate_succ_apply', scanKeyboard_iterate_press hc hwin hdet hsel (by omega), scanKeyboard,
    autoRelease_of_threshold rfl (.inl (by rw [hseen, hn]))]
  exact ⟨rfl, rfl⟩

end Press

/-- Settles O30: until the last detection each scan sees the key held; the last one releases every key, which the next scan sees. -/
theorem keyIsSeenDetCountTimesThenReleased : Obligations.KeyIsSeenDetCountTimesThenReleased :=
  fun c s p hc hwin _ hdet hq hsel => by
  have hq' : NoKeyQueued c { s with kbd := press p s.kbd } := hq
  obtain ⟨hphase, hrows⟩ := released_after_detCount hc hwin hdet hsel
  refine ⟨fun n hn => ⟨_, kbdRead_iterate_result hq' n, ?_⟩, ?_, ?_, ?_⟩
  · rw [scanKeyboard_iterate_press hc hwin hdet hsel hn]
    exact scanValue_pressedSeen hsel n
  · rw [kbdRead_iterate_result hq', scanValue_of_released hrows]
  · rw [(kbdRead_iterate hq' _).2, hphase]
  · rw [(kbdRead_iterate hq' _).2, hrows]

end Sys2Proof.Machine
end

section
/-! The invariant (10_state.md sections 2 to 4): each rule of the bus and each host interaction keeps it in every well-formed
configuration, and the table machine is the rule machine of the standard one. -/

namespace Sys2Proof.Machine

open Sys2Proof

section Shape

variable {c : Config} {s t : State} {h : HostEvent}

/-- A Receive Data read may take a byte off the queue, set the latch or count a draw, and answers a byte (R104). -/
theorem serialRxRead_eq (c : Config) (s : State) : ∃ l n v,
    serialRxRead c s = { s with
      inQ := s.inQ.tail, ser := { s.ser with rxlatch := l }, draws := n, result := some v } ∧
    (c.rxEmptyRead = .latch → n = s.draws) := by
  cases hq : s.inQ with
  | nil =>
    cases hc : c.rxEmptyRead with
    | latch => exact ⟨s.ser.rxlatch, s.draws, _, by rw [serialRxRead_latch hq hc, List.tail_nil, ← hq], fun _ => rfl⟩
    | any => exact ⟨s.ser.rxlatch, s.draws + 1, _, by rw [serialRxRead_any hq hc, List.tail_nil, ← hq], nofun⟩
  | cons b q => exact ⟨b, s.draws, b, serialRxRead_ready hq, fun _ => rfl⟩

/-- The pacer's check clears the flag and counts a CPU reset where one was pending (R152, R153). -/
theorem pacerCheck_eq (s : State) :
    pacerCheck s = { s with
      pendingAction := .none, cpuResets := s.cpuResets + if s.pendingAction = .resetRequest then 1 else 0 } := by
  rcases s with ⟨ram, rom, vid, ser, kbd, m, inQ, outQ, out, res, port, act, n, dr, ag⟩
  cases act <;> rfl

/-- All a host interaction can do (44_host.md R145). -/
theorem hostStep_cases (ht : hostStep c h s = .next t) :
    (h = .powerOn ∧ t = powerOn c s) ∨ (∃ img, h = .romLoad img ∧ s.romPort = .opened ∧ t = romLoad c img s) ∨
    (∃ b, h = .conIn b ∧ t = conArrive b s) ∨ (∃ k, h = .conOut k ∧ t = conDrain k s) ∨
    (h = .resetRequest ∧ t = requestReset s) ∨ (h = .pacerCheck ∧ t = pacerCheck s) := by
  cases h with
  | powerOn => exact .inl ⟨rfl, (Host.Outcome.next.inj ht).symm⟩
  | romLoad img =>
    cases hp : s.romPort <;> simp only [hostStep, hp, reduceCtorEq, Host.Outcome.next.injEq] at ht
    exact .inr (.inl ⟨img, rfl, rfl, ht.symm⟩)
  | conIn b => exact .inr (.inr (.inl ⟨b, rfl, (Host.Outcome.next.inj ht).symm⟩))
  | conOut k => exact .inr (.inr (.inr (.inl ⟨k, rfl, (Host.Outcome.next.inj ht).symm⟩)))
  | resetRequest => exact .inr (.inr (.inr (.inr (.inl ⟨rfl, (Host.Outcome.next.inj ht).symm⟩))))
  | pacerCheck => exact .inr (.inr (.inr (.inr (.inr ⟨rfl, (Host.Outcome.next.inj ht).symm⟩))))

/-- All a step of the rule machine can do (R6, R146). -/
theorem busStep_cases (ht : busStep c s = .next t) :
    t = s ∨ (∃ w rest, s.agenda = .bus w :: rest ∧ t = transact c w (s.beginTransaction rest)) ∨
    (∃ h rest, s.agenda = .host h :: rest ∧ hostStep c h (s.beginHost rest) = .next t) := by
  cases ha : s.agenda with
  | nil =>
    simp only [busStep, ha, Host.Outcome.next.injEq] at ht
    exact .inl ht.symm
  | cons e rest =>
    cases e with
    | bus w =>
      simp only [busStep, ha, Host.Outcome.next.injEq] at ht
      exact .inr (.inl ⟨w, rest, rfl, ht.symm⟩)
    | host h =>
      simp only [busStep, ha] at ht
      exact .inr (.inr ⟨h, rest, rfl, ht⟩)

/-- All a step can do (R6, R14, R146). -/
theorem step_cases (ht : step s = .next t) :
    t = s ∨ (∃ w rest i, s.agenda = .bus w :: rest ∧ exec i (s.beginTransaction rest) = .next t) ∨
    (∃ h rest, s.agenda = .host h :: rest ∧ hostStep Config.standard h (s.beginHost rest) = .next t) := by
  rw [tableMachineEqualsBusRuleMachine s] at ht
  rcases busStep_cases ht with h | ⟨w, rest, ha, rfl⟩ | h
  · exact .inl h
  · obtain ⟨i, hd, -⟩ := exists_decode_isWrite w
    exact .inr (.inl ⟨w, rest, i, ha, exec_eq_transact hd _⟩)
  · exact .inr (.inr h)

end Shape

section Invariant

variable {c : Config} {s t : State} {a : Addr}

theorem MemoryOk.of_bank_eq (hs : MemoryOk c s) (h : ∀ b, t.bank b = s.bank b) : MemoryOk c t := fun b => by
  rw [h]
  exact hs b

theorem MemoryOk.pokeRam (hs : MemoryOk c s) {i : Nat} (hi : i < c.ramSize) (v : Byte) : MemoryOk c (s.pokeRam c i v)
  | .ram => ⟨write_wf (hs .ram).1 i v, write_below (hs .ram).2 hi v⟩
  | .rom => hs .rom
  | .vid => hs .vid

theorem MemoryOk.pokeVid (hs : MemoryOk c s) {i : Nat} (hi : i < c.vidSize) (v : Byte) : MemoryOk c (s.pokeVid c i v)
  | .ram => hs .ram
  | .rom => hs .rom
  | .vid => ⟨write_wf (hs .vid).1 i v, write_below (hs .vid).2 hi v⟩

theorem MemoryOk.romLoad (hs : MemoryOk c s) (img : List Byte) : MemoryOk c (romLoad c img s)
  | .ram => hs .ram
  | .rom => ⟨load_wf (hs .rom).1 _, load_below (hs .rom).2 (List.length_take_le _ _)⟩
  | .vid => hs .vid

theorem memoryOk_of_nil (h : ∀ b, s.bank b = []) : MemoryOk c s := fun b => by
  rw [h]
  exact ⟨⟨.nil, nofun⟩, nofun⟩

theorem KeyboardOk.powerOn (hc : c.WellFormed) : KeyboardOk c (Keyboard.powerOn c) :=
  ⟨Nat.zero_le _, hc.count, fun _ => rfl, nofun⟩

theorem Inv.frame (hs : Inv c s) (hbank : ∀ b, t.bank b = s.bank b) (hkbd : t.kbd = s.kbd)
    (hflag : t.ser.tdreFlag = s.ser.tdreFlag) : Inv c t := by
  obtain ⟨hm, hk, hf⟩ := hs
  exact ⟨hm.of_bank_eq hbank, hkbd ▸ hk, hflag.trans hf⟩

theorem Inv.answer (hs : Inv c s) (v : Byte) : Inv c (s.answer v) := hs.frame (answer_bank s v) rfl rfl

theorem Inv.acknowledge (hs : Inv c s) : Inv c s.acknowledge := hs.frame (acknowledge_bank s) rfl rfl

theorem Inv.ramWrite (hc : c.WellFormed) (hs : Inv c s) (a : Addr) (d : Byte) : Inv c (ramWrite c a d s) := by
  obtain ⟨hm, hk, hf⟩ := hs
  exact Inv.acknowledge ⟨hm.pokeRam (ramIndex_lt hc a) d, hk, hf⟩

theorem Inv.videoWrite (hs : Inv c s) (hi : vidIndex c a < c.vidSize) (d : Byte) : Inv c (videoWrite c a d s) := by
  obtain ⟨hm, hk, hf⟩ := hs
  exact Inv.acknowledge ⟨hm.pokeVid hi d, hk, hf⟩

theorem Inv.serialRead (hs : Inv c s) (sel : Bool) : Inv c (serialRead c sel s) := by
  cases sel with
  | false => exact hs.answer _
  | true =>
    obtain ⟨l, n, v, h, -⟩ := serialRxRead_eq c s
    exact hs.frame (fun b => by rw [Machine.serialRead, h]; cases b <;> rfl) (by rw [Machine.serialRead, h])
      (by rw [Machine.serialRead, h])

theorem Inv.serialWrite (hs : Inv c s) (sel : Bool) (d : Byte) : Inv c (serialWrite sel d s) := by
  obtain ⟨hm, hk, hf⟩ := hs
  cases sel with
  | false => exact ⟨hm.of_bank_eq fun b => by cases b <;> rfl, hk, hf⟩
  | true => exact ⟨hm.of_bank_eq fun b => by cases b <;> rfl, hk, rfl⟩

theorem Inv.kbdRead (hc : c.WellFormed) (hs : Inv c s) : Inv c (kbdRead c s) := by
  obtain ⟨hm, hk, hf⟩ := hs
  rw [kbdRead_eq]
  exact ⟨hm.of_bank_eq fun b => by cases b <;> rfl, (hk.poll hc).autoRelease hc, hf⟩

theorem Inv.kbdWrite (hc : c.WellFormed) (hs : Inv c s) (d : Byte) : Inv c (kbdWrite c d s) := by
  obtain ⟨hm, hk, hf⟩ := hs
  rw [kbdWrite_eq]
  exact ⟨hm.of_bank_eq fun b => by cases b <;> rfl, hk.poll hc, hf⟩

theorem Inv.memRead (hc : c.WellFormed) (hs : Inv c s) (a : Addr) : Inv c (memRead c a s) := by
  unfold Machine.memRead
  split
  case h_1 | h_2 | h_4 | h_6 => exact hs.answer _
  case h_3 => exact hs.serialRead _
  case h_5 => exact hs.kbdRead hc

theorem Inv.memWrite (hc : c.WellFormed) (hs : Inv c s) (a : Addr) (d : Byte) : Inv c (memWrite c a d s) := by
  unfold Machine.memWrite
  split
  case h_1 => exact hs.ramWrite hc a d
  case h_2 | h_6 | h_7 => exact hs.acknowledge
  case h_3 => exact hs.serialWrite _ d
  case h_4 h => exact hs.videoWrite (vidIndex_lt hc (vidW_contains_of_writeTarget h)).2 d
  case h_5 => exact hs.kbdWrite hc d

theorem Inv.transact (hc : c.WellFormed) (hs : Inv c s) (w : BusWord) : Inv c (transact c w s) := by
  cases hw : wordWrite w with
  | false => rw [transact_of_read hw]; exact hs.memRead hc _
  | true => rw [transact_of_write hw]; exact hs.memWrite hc _ _

/-- The state after power-on meets the invariant, whatever state it interrupts (70_reset_and_hazards.md R177). -/
theorem inv_powerOn (hc : c.WellFormed) (s : State) : Inv c (powerOn c s) :=
  ⟨memoryOk_of_nil fun b => by cases b <;> rfl, .powerOn hc, rfl⟩

theorem Inv.hostStep (hc : c.WellFormed) (hs : Inv c s) {h : HostEvent} (ht : hostStep c h s = .next t) : Inv c t := by
  rcases hostStep_cases ht with ⟨-, rfl⟩ | ⟨img, -, -, rfl⟩ | ⟨b, -, rfl⟩ | ⟨k, -, rfl⟩ | ⟨-, rfl⟩ | ⟨-, rfl⟩
  case inl => exact inv_powerOn hc s
  case inr.inl =>
    obtain ⟨hm, hk, hf⟩ := hs
    exact ⟨hm.romLoad img, hk, hf⟩
  case inr.inr.inr.inr.inr =>
    rw [pacerCheck_eq]
    exact hs.frame (fun b => by cases b <;> rfl) rfl rfl
  all_goals exact hs.frame (fun b => by cases b <;> rfl) rfl rfl

theorem Inv.busStep (hc : c.WellFormed) (hs : Inv c s) (ht : busStep c s = .next t) : Inv c t := by
  rcases busStep_cases ht with rfl | ⟨w, rest, -, rfl⟩ | ⟨h, rest, -, ht⟩
  · exact hs
  · exact Inv.transact hc (hs.frame (beginTransaction_bank s rest) rfl rfl) w
  · exact Inv.hostStep hc (hs.frame (beginHost_bank s rest) rfl rfl) ht

end Invariant

/-- Settles O42. -/
theorem busRulesKeepTheInvariantInEveryConfiguration : Obligations.BusRulesKeepTheInvariantInEveryConfiguration :=
  fun _ _ _ hc hs ht => hs.busStep hc ht

/-- Settles O41: the table machine is the rule machine of the standard configuration, which is well formed. -/
theorem stepKeepsTheInvariant : Obligations.StepKeepsTheInvariant := fun s _ hs ht =>
  hs.busStep standardConfigurationIsWellFormed ((tableMachineEqualsBusRuleMachine s).symm.trans ht)

/-- Settles O40: the state after reset is a power-on state but for what the invariant does not mention. -/
theorem resetMeetsTheInvariant : Obligations.ResetMeetsTheInvariant :=
  (inv_powerOn standardConfigurationIsWellFormed State.reset).frame (fun b => by cases b <;> rfl) rfl rfl

section Canonical

variable {fill : Byte} {m : Memory}

/-- An array of canonical form lists exactly the cells that read as something other than the fill (log 23). -/
theorem mem_iff_read (hm : Memory.wf fill m) (x : Host.Cell) : x ∈ m ↔ x.2 ≠ fill ∧ Memory.read fill m x.1 = x.2 := by
  induction m with
  | nil =>
    rw [read_nil]
    exact ⟨nofun, fun h => absurd h.2.symm h.1⟩
  | cons y m ih =>
    obtain ⟨k, v⟩ := y
    obtain ⟨i, b⟩ := x
    obtain ⟨hlt, hv, hw⟩ := wf_cons.1 hm
    rw [List.mem_cons, ih hw]
    by_cases hk : k = i
    · subst hk
      have hr : Memory.read fill m k = fill := read_unlisted fun c hc => (hlt c hc).ne'
      simp only [Memory.read, if_true, hr, Prod.mk.injEq, true_and]
      constructor
      · rintro (rfl | ⟨hb, rfl⟩)
        · exact ⟨hv, rfl⟩
        · exact absurd rfl hb
      · exact fun h => .inl h.2.symm
    · simp only [Memory.read, if_neg hk, Prod.mk.injEq, Ne.symm hk, false_and, false_or]

theorem wf_pairwise (hm : Memory.wf fill m) : m.Pairwise fun x y => x.1 < y.1 := List.pairwise_map.1 hm.1

end Canonical

/-- Settles O57: reads alike make the same cells listed, and the rising indexes leave them one order. -/
theorem canonicalMemoryIsDeterminedByItsReads : Obligations.CanonicalMemoryIsDeterminedByItsReads := by
  intro fill m m' hm hm' h
  have : Std.Asymm fun x y : Host.Cell => x.1 < y.1 := ⟨fun _ _ => lt_asymm⟩
  refine (wf_pairwise hm).eq_of_mem_iff (wf_pairwise hm') fun x => ?_
  rw [mem_iff_read hm, mem_iff_read hm', h]

end Sys2Proof.Machine
end

section
/-! Frames (20_memory.md section 5, 41_serial.md section 2, 42_keyboard.md section 5, 44_host.md section 1): what an instruction can
change, said once as the fields it writes, and the statements about what each leaves unchanged. -/

namespace Sys2Proof.Machine

open Sys2Proof

section Effects

variable {i : Instr} {s t : State}

/-- The fields an instruction writes, by its family: the answer always; one array for a RAM or video write; the queue and the latch
for a Receive Data read; the serial registers for a serial write; the queue and the keyboard for a keyboard access. -/
theorem exec_effects (h : exec i s = .next t) :
    (∃ r, t = { s with result := r }) ∨
    (∃ a d, i = .wrRam a d ∧
      t = { s with ram := Memory.write (Config.standard.unlisted .ram) s.ram (ramIndex Config.standard a) d, result := none }) ∨
    (∃ a d, i = .wrVid a d ∧
      t = { s with vid := Memory.write (Config.standard.unlisted .vid) s.vid (vidIndex Config.standard a) d, result := none }) ∨
    (∃ a l v, (i = .rdSerNatRxdata a ∨ i = .rdSerLegRxdata a) ∧
      t = { s with inQ := s.inQ.tail, ser := { s.ser with rxlatch := l }, result := some v }) ∨
    (∃ a d, (i = .wrSerNatControl a d ∨ i = .wrSerLegControl a d) ∧
      t = { s with ser := { s.ser with control := d }, result := none }) ∨
    (∃ a d, (i = .wrSerNatTxdata a d ∨ i = .wrSerLegTxdata a d) ∧
      t = { s with ser := { s.ser with txdata := d, tdreFlag := true }, outQ := s.outQ ++ [d], result := none }) ∨
    (∃ k r, ((∃ a, i = .rdKbd a) ∨ ∃ a d, i = .wrKbd a d) ∧ t = { s with inQ := s.inQ.tail, kbd := k, result := r }) := by
  rcases exec_cases h with ⟨v, rfl⟩ | rfl | ⟨a, d, rfl, rfl⟩ | ⟨a, d, rfl, rfl⟩ | ⟨⟨a, hi⟩, rfl⟩ | ⟨a, d, hi, rfl⟩ |
    ⟨a, d, hi, rfl⟩ | ⟨a, rfl, rfl⟩ | ⟨a, d, rfl, rfl⟩
  · exact .inl ⟨some v, rfl⟩
  · exact .inl ⟨none, rfl⟩
  · exact .inr (.inl ⟨a, d, rfl, rfl⟩)
  · exact .inr (.inr (.inl ⟨a, d, rfl, rfl⟩))
  · obtain ⟨l, n, v, heq, hn⟩ := serialRxRead_eq Config.standard s
    obtain rfl := hn rfl
    exact .inr (.inr (.inr (.inl ⟨a, l, v, hi, heq⟩)))
  · exact .inr (.inr (.inr (.inr (.inl ⟨a, d, hi, rfl⟩))))
  · exact .inr (.inr (.inr (.inr (.inr (.inl ⟨a, d, hi, rfl⟩)))))
  · exact .inr (.inr (.inr (.inr (.inr (.inr ⟨_, _, .inl ⟨a, rfl⟩, kbdRead_eq _ s⟩)))))
  · exact .inr (.inr (.inr (.inr (.inr (.inr ⟨_, _, .inr ⟨a, d, rfl⟩, kbdWrite_eq _ d s⟩)))))

end Effects

/-- Settles O34. -/
theorem noTransactionChangesRom : Obligations.NoTransactionChangesRom := fun i s t h => by
  rcases exec_effects h with ⟨r, rfl⟩ | ⟨a, d, -, rfl⟩ | ⟨a, d, -, rfl⟩ | ⟨a, l, v, -, rfl⟩ | ⟨a, d, -, rfl⟩ | ⟨a, d, -, rfl⟩ |
    ⟨k, r, -, rfl⟩ <;> exact ⟨rfl, rfl⟩

/-- Settles O39. -/
theorem transactionsLeaveTheHostAlone : Obligations.TransactionsLeaveTheHostAlone := fun i s t h => by
  rcases exec_effects h with ⟨r, rfl⟩ | ⟨a, d, -, rfl⟩ | ⟨a, d, -, rfl⟩ | ⟨a, l, v, -, rfl⟩ | ⟨a, d, -, rfl⟩ | ⟨a, d, -, rfl⟩ |
    ⟨k, r, -, rfl⟩ <;> exact ⟨rfl, rfl, rfl, rfl, rfl, rfl⟩

/-- Settles O35. -/
theorem keyboardChangesOnlyByKeyboardAccess : Obligations.KeyboardChangesOnlyByKeyboardAccess := fun i s t h hrd hwr => by
  rcases exec_effects h with ⟨r, rfl⟩ | ⟨a, d, -, rfl⟩ | ⟨a, d, -, rfl⟩ | ⟨a, l, v, -, rfl⟩ | ⟨a, d, -, rfl⟩ | ⟨a, d, -, rfl⟩ |
    ⟨k, r, ⟨a, hi⟩ | ⟨a, d, hi⟩, rfl⟩
  case inr.inr.inr.inr.inr.inr.inl => exact absurd hi (hrd a)
  case inr.inr.inr.inr.inr.inr.inr => exact absurd hi (hwr a d)
  all_goals rfl

section Queue

variable {i : Instr} {s t : State}

/-- The four transactions that consume a console byte (20_memory.md section 5, D18). -/
def Consumes (i : Instr) : Prop :=
  (∃ a, i = .rdKbd a ∨ i = .rdSerNatRxdata a ∨ i = .rdSerLegRxdata a) ∨ ∃ a d, i = .wrKbd a d

theorem inQ_of_consumes (hi : Consumes i) (h : exec i s = .next t) : t.inQ = s.inQ.tail := by
  have hrx : (serialRxRead Config.standard s).inQ = s.inQ.tail := by
    obtain ⟨l, n, v, heq, -⟩ := serialRxRead_eq Config.standard s
    rw [heq]
  rcases hi with ⟨a, rfl | rfl | rfl⟩ | ⟨a, d, rfl⟩ <;> obtain rfl := Host.Outcome.next.inj h
  · rw [kbdRead_eq]
  · exact hrx
  · exact hrx
  · rw [kbdWrite_eq]

theorem inQ_of_not_consumes (hi : ¬ Consumes i) (h : exec i s = .next t) : t.inQ = s.inQ := by
  rcases exec_effects h with ⟨r, rfl⟩ | ⟨a, d, -, rfl⟩ | ⟨a, d, -, rfl⟩ | ⟨a, l, v, hr, rfl⟩ | ⟨a, d, -, rfl⟩ | ⟨a, d, -, rfl⟩ |
    ⟨k, r, ⟨a, hr⟩ | hr, rfl⟩
  case inr.inr.inr.inl => exact absurd (.inl ⟨a, .inr hr⟩) hi
  case inr.inr.inr.inr.inr.inr.inl => exact absurd (.inl ⟨a, .inl hr⟩) hi
  case inr.inr.inr.inr.inr.inr.inr => exact absurd (.inr hr) hi
  all_goals rfl

end Queue

/-- Settles O36. -/
theorem consoleBytesAreConsumedOneAtATime : Obligations.ConsoleBytesAreConsumedOneAtATime := fun i s t h => by
  refine ⟨?_, fun hrd hwr => inQ_of_not_consumes ?_ h, fun hi => inQ_of_consumes hi h⟩
  · by_cases hi : Consumes i
    · exact .inr (inQ_of_consumes hi h)
    · exact .inl (inQ_of_not_consumes hi h)
  · rintro (⟨a, hi⟩ | ⟨a, d, hi⟩)
    · obtain ⟨hkbd, hnat, hleg⟩ := hrd a
      exact hi.elim hkbd (Or.rec hnat hleg)
    · exact hwr a d hi

/-- Settles O37. -/
theorem serialHalvesAreIndependent : Obligations.SerialHalvesAreIndependent := fun i s t h => by
  rcases exec_effects h with ⟨r, rfl⟩ | ⟨a, d, -, rfl⟩ | ⟨a, d, -, rfl⟩ | ⟨a, l, v, hi, rfl⟩ | ⟨a, d, hi, rfl⟩ |
    ⟨a, d, hi, rfl⟩ | ⟨k, r, -, rfl⟩
  case inr.inr.inr.inl =>
    exact ⟨fun hn => absurd hi (not_or.2 (hn a)), fun _ => ⟨rfl, rfl, rfl⟩, fun _ => rfl⟩
  case inr.inr.inr.inr.inl => exact ⟨fun _ => rfl, fun _ => ⟨rfl, rfl, rfl⟩, fun hn => absurd hi (not_or.2 (hn a d))⟩
  case inr.inr.inr.inr.inr.inl => exact ⟨fun _ => rfl, fun hn => absurd hi (not_or.2 (hn a d)), fun _ => rfl⟩
  all_goals exact ⟨fun _ => rfl, fun _ => ⟨rfl, rfl, rfl⟩, fun _ => rfl⟩

/-- Settles O38: only a RAM or a video write changes an array, and the sparse array keeps every other index. -/
theorem onlyStoredBytesChange : Obligations.OnlyStoredBytesChange := fun i s t h b n hram hvid => by
  rcases exec_effects h with ⟨r, rfl⟩ | ⟨a, d, hi, rfl⟩ | ⟨a, d, hi, rfl⟩ | ⟨a, l, v, -, rfl⟩ | ⟨a, d, -, rfl⟩ |
    ⟨a, d, -, rfl⟩ | ⟨k, r, -, rfl⟩
  case inr.inl =>
    have hne := hram a d hi
    cases b with
    | ram => exact read_write_other d (by rw [ramIndex_eq_mod standard_ramSize]; exact fun e => hne ⟨rfl, e⟩)
    | rom | vid => rfl
  case inr.inr.inl =>
    have hne := hvid a d hi
    cases b with
    | ram | rom => rfl
    | vid => exact read_write_other d fun e => hne ⟨rfl, e⟩
  all_goals cases b <;> rfl

end Sys2Proof.Machine
end

section
/-! The serial adapter and the host (41_serial.md R102 to R108, 44_host.md R145 to R153, 70_reset_and_hazards.md R177): what the
serial transactions answer and leave, what each host interaction changes, and the power-on values. -/

namespace Sys2Proof.Machine

open Sys2Proof

section Serial

theorem serialStatusRead_eq (s : State) :
    serialStatusRead s = { s with result := some (if s.inQ = [] then 0x02 else 0x03) } := by
  rw [serialStatusRead, statusByte_eq]
  rfl

end Serial

/-- Settles O19. -/
theorem statusReadShowsReadiness : Obligations.StatusReadShowsReadiness := fun _ s =>
  ⟨congrArg _ (serialStatusRead_eq s), congrArg _ (serialStatusRead_eq s)⟩

/-- Settles O20: the rule with a byte waiting and, under the standard policy `Latch`, with none. -/
theorem receiveReadPullsOneByte : Obligations.ReceiveReadPullsOneByte := fun _ _ =>
  ⟨fun _ _ h => ⟨congrArg _ (serialRxRead_ready h), congrArg _ (serialRxRead_ready h)⟩,
    fun h => ⟨congrArg _ (serialRxRead_latch h rfl), congrArg _ (serialRxRead_latch h rfl)⟩⟩

/-- Settles O21: the select reaches Receive Data, whose empty read under `Any` draws a byte. -/
theorem emptyReceiveReadUnderAny : Obligations.EmptyReceiveReadUnderAny := fun c a w s hc hw hsel hq => by
  rw [memRead_of_serial hw, hsel]
  exact ⟨_, serialRxRead_any hq hc⟩

/-- Settles O23: the rule is the update stated; after two writes the queue holds both bytes, the first before the second. -/
theorem transmitWriteForwardsTheByte : Obligations.TransmitWriteForwardsTheByte := fun a d e s => by
  refine ⟨rfl, rfl, fun t u ht hu => ?_⟩
  obtain rfl := Host.Outcome.next.inj ht
  obtain rfl := Host.Outcome.next.inj hu
  exact List.append_assoc s.outQ [d] [e]

section Access

variable {i : Instr} {a : Addr}

theorem exec_statusRead (hi : i = .rdSerNatStatus a ∨ i = .rdSerLegStatus a) (s : State) :
    exec i s = .next (serialStatusRead s) := by
  rcases hi with rfl | rfl <;> rfl

theorem exec_receiveRead (hi : i = .rdSerNatRxdata a ∨ i = .rdSerLegRxdata a) (s : State) :
    exec i s = .next (serialRxRead Config.standard s) := by
  rcases hi with rfl | rfl <;> rfl

/-- Bit 0 of the Status byte is the readiness of the queue (R103). -/
theorem statusByte_bit0 (s : State) : (statusByte s).getLsbD 0 = !s.inQ.isEmpty := by
  rw [statusByte_eq]
  cases s.inQ with
  | nil => rfl
  | cons b q =>
    rw [if_neg (List.cons_ne_nil b q)]
    rfl

end Access

/-- Settles O48: Status shows whether the queue is empty, and the read between pulls its one byte. -/
theorem serialReceiveSequence : Obligations.SerialReceiveSequence := fun i j k a b e v s hi hj hk hq => by
  have hrx : serialRxRead Config.standard (serialStatusRead s) = _ := serialRxRead_ready (b := v) (q := []) hq
  refine ⟨_, _, _, exec_statusRead hi s, exec_receiveRead hj _, exec_statusRead hk _, ⟨_, rfl, ?_, rfl⟩, ?_, ⟨_, rfl, ?_, ?_⟩⟩
  · rw [statusByte_bit0, hq]
    rfl
  · rw [hrx]
  · rw [statusByte_bit0, hrx]
    rfl
  · rw [hrx]
    rfl

/-- Settles O49. -/
theorem resetValues : Obligations.ResetValues :=
  ⟨fun b i => by cases b <;> rfl, rfl, rfl, rfl, rfl, by decide, rfl, rfl, rfl, rfl, rfl⟩

/-- Settles O50: what a loaded array reads as, at the indexes the image covers and past them. -/
theorem romLoadCopiesTheOverlappingPrefix : Obligations.RomLoadCopiesTheOverlappingPrefix := fun c img s hp => by
  refine ⟨romLoad c img s, by simp only [hostStep, hp], rfl, fun i => ?_⟩
  have hlen : (img.take c.romSize).length = min img.length c.romSize := by rw [List.length_take, Nat.min_comm]
  refine (read_load s.rom (img.take c.romSize) i).trans ?_
  simp only [hlen]
  split
  · rename_i hi
    rw [List.getElem_take, List.getD_eq_getElem]
  · rfl

/-- Settles O51: a transaction closes the port and leaves it closed, and of the host interactions only power-on opens it and only
an accepted load, which needs it open, moves it. -/
theorem secondRomLoadIsRefused : Obligations.SecondRomLoadIsRefused := by
  refine ⟨fun s t w rest ha ht => ?_, fun c h s t hne hp ht => ?_, fun c img s => ⟨fun hp => ?_, fun hp => ?_⟩⟩
  · obtain ⟨i, hd, -⟩ := exists_decode_isWrite w
    rw [step_of_bus ha hd] at ht
    obtain ⟨-, hport, -⟩ := transactionsLeaveTheHostAlone i _ t ht
    exact hport
  · rcases hostStep_cases ht with ⟨h, -⟩ | ⟨img, -, h, -⟩ | ⟨b, -, rfl⟩ | ⟨k, -, rfl⟩ | ⟨-, rfl⟩ | ⟨-, rfl⟩
    · exact absurd h hne
    · exact absurd (hp.symm.trans h) nofun
    · exact hp
    · exact hp
    · exact hp
    · rw [pacerCheck_eq]; exact hp
  · simp only [hostStep, hp]
  · simp only [hostStep, hp]

theorem step_of_host {s : State} {h : HostEvent} {rest : List Event} (ha : s.agenda = .host h :: rest) :
    step s = hostStep Config.standard h (s.beginHost rest) := by
  simp only [step, ha]

/-- Settles O52: a drain splits the output queue in the bytes taken and the bytes left. -/
theorem consoleArrivalAndDrain : Obligations.ConsoleArrivalAndDrain := by
  refine ⟨fun s b rest ha => step_of_host ha, fun s k rest ha => ⟨_, step_of_host ha, rfl, ?_, ?_⟩⟩
  · exact List.length_drop
  · exact ⟨s.outQ.take k, rfl, List.take_append_drop k s.outQ⟩

/-- Settles O53. -/
theorem hostInteractionsKeepTheBlock : Obligations.HostInteractionsKeepTheBlock := fun c h s t ht hon hload => by
  rcases hostStep_cases ht with ⟨h, -⟩ | ⟨img, h, -, -⟩ | ⟨b, -, rfl⟩ | ⟨k, -, rfl⟩ | ⟨-, rfl⟩ | ⟨-, rfl⟩
  case inl => exact absurd h hon
  case inr.inl => exact absurd h (hload img)
  case inr.inr.inr.inr.inr => rw [pacerCheck_eq]; exact ⟨rfl, rfl, rfl, rfl, rfl, rfl⟩
  all_goals exact ⟨rfl, rfl, rfl, rfl, rfl, rfl⟩

/-- Settles O54: the request sets the flag, so the check that follows finds it set. -/
theorem resetRequestReachesOnlyTheCpu : Obligations.ResetRequestReachesOnlyTheCpu := fun c s t u ht hu => by
  obtain rfl := Host.Outcome.next.inj ht
  obtain rfl := Host.Outcome.next.inj hu
  exact ⟨rfl, rfl, rfl, rfl, ⟨rfl, rfl, rfl, rfl, rfl, rfl⟩, rfl, rfl⟩

/-- Settles O58. -/
theorem powerOnStartsANewRun : Obligations.PowerOnStartsANewRun := fun _ _ ha =>
  ⟨_, step_of_host ha, ⟨rfl, rfl, rfl, rfl, rfl, rfl⟩, rfl, rfl, rfl, rfl⟩

section Output

variable {c : Config} {s t : State}

/-- An instruction drains no byte and transmits one or none (R106). -/
theorem exec_output {i : Instr} (ht : exec i s = .next t) :
    ∃ p : List Byte, p.length ≤ 1 ∧ t.hostOut ++ t.outQ = s.hostOut ++ s.outQ ++ p := by
  rcases exec_effects ht with ⟨r, rfl⟩ | ⟨a, d, -, rfl⟩ | ⟨a, d, -, rfl⟩ | ⟨a, l, v, -, rfl⟩ | ⟨a, d, -, rfl⟩ |
    ⟨a, d, -, rfl⟩ | ⟨k, r, -, rfl⟩
  case inr.inr.inr.inr.inr.inl => exact ⟨[d], le_rfl, (List.append_assoc _ _ _).symm⟩
  all_goals exact ⟨[], Nat.zero_le _, (List.append_nil _).symm⟩

/-- A host interaction transmits no byte, and a drain moves bytes from the head of the queue to the end of those drained (R151). -/
theorem hostStep_output {h : HostEvent} (ht : hostStep c h s = .next t) : t.hostOut ++ t.outQ = s.hostOut ++ s.outQ := by
  rcases hostStep_cases ht with ⟨-, rfl⟩ | ⟨img, -, -, rfl⟩ | ⟨b, -, rfl⟩ | ⟨k, -, rfl⟩ | ⟨-, rfl⟩ | ⟨-, rfl⟩
  case inr.inr.inr.inl => simp only [conDrain, List.append_assoc, List.take_append_drop]
  case inr.inr.inr.inr.inr => rw [pacerCheck_eq]
  all_goals rfl

end Output

/-- Settles O55. -/
theorem transmittedBytesAreNeverLost : Obligations.TransmittedBytesAreNeverLost := fun s t ht => by
  rcases step_cases ht with rfl | ⟨w, rest, i, -, ht⟩ | ⟨h, rest, -, ht⟩
  · exact ⟨[], Nat.zero_le _, (List.append_nil _).symm⟩
  · exact exec_output (s := s.beginTransaction rest) ht
  · exact ⟨[], Nat.zero_le _, (hostStep_output ht).trans (List.append_nil _).symm⟩

section Hide

variable {c : Config} {s s' t : State} {h : HostEvent}

/-- From two states that differ only in write-only registers, a host interaction reaches two such states. -/
theorem hostStep_of_hideWriteOnly_eq (ht : hostStep c h s = .next t) (hs : s.hideWriteOnly = s'.hideWriteOnly) :
    ∃ t', hostStep c h s' = .next t' ∧ t.hideWriteOnly = t'.hideWriteOnly := by
  rcases hostStep_cases ht with ⟨rfl, rfl⟩ | ⟨img, rfl, hp, rfl⟩ | ⟨b, rfl, rfl⟩ | ⟨k, rfl, rfl⟩ | ⟨rfl, rfl⟩ | ⟨rfl, rfl⟩
  · exact ⟨_, rfl, (congrArg (powerOn c) hs :)⟩
  · have hp' : s'.romPort = .opened := (congrArg State.romPort hs :).symm.trans hp
    exact ⟨romLoad c img s', by simp only [hostStep, hp'], (congrArg (romLoad c img) hs :)⟩
  · exact ⟨_, rfl, (congrArg (conArrive b) hs :)⟩
  · exact ⟨_, rfl, (congrArg (conDrain k) hs :)⟩
  · exact ⟨_, rfl, (congrArg requestReset hs :)⟩
  · have hcheck := congrArg pacerCheck hs
    rw [pacerCheck_eq, pacerCheck_eq] at hcheck
    refine ⟨_, rfl, ?_⟩
    rw [pacerCheck_eq, pacerCheck_eq]
    exact hcheck

/-- From two states that differ only in write-only registers, a step reaches two such states. -/
theorem step_of_hideWriteOnly_eq (ht : step s = .next t) (hs : s.hideWriteOnly = s'.hideWriteOnly) :
    ∃ t', step s' = .next t' ∧ t.hideWriteOnly = t'.hideWriteOnly := by
  have hagenda : s'.agenda = s.agenda := (congrArg State.agenda hs.symm :)
  cases ha : s.agenda with
  | nil =>
    rw [nothingHappensBetweenTransactions s ha] at ht
    exact ⟨s', nothingHappensBetweenTransactions s' (hagenda.trans ha), Host.Outcome.next.inj ht ▸ hs⟩
  | cons e rest =>
    cases e with
    | bus w =>
      obtain ⟨i, hd, -⟩ := exists_decode_isWrite w
      rw [step_of_bus ha hd] at ht
      rw [step_of_bus (hagenda.trans ha) hd]
      exact exec_of_hideWriteOnly_eq ht (congrArg (State.beginTransaction · rest) hs :)
    | host h =>
      rw [step_of_host ha] at ht
      rw [step_of_host (hagenda.trans ha)]
      exact hostStep_of_hideWriteOnly_eq ht (congrArg (State.beginHost · rest) hs :)

end Hide

section Run

variable {M : Host.Core} {n : Nat} {s t u : M.State}

/-- A run goes on from the state its first step reaches. -/
theorem run_succ_of_step (h : M.step s = .next u) : M.run (n + 1) s = M.run n u := by
  simp only [Host.Core.run, h]

/-- A run that reaches a state took its first step. -/
theorem exists_step_of_run (h : M.run (n + 1) s = .next t) : ∃ u, M.step s = .next u ∧ M.run n u = .next t := by
  rw [Host.Core.run] at h
  cases hs : M.step s with
  | next u => exact ⟨u, rfl, by simpa only [hs] using h⟩
  | fault r => simp only [hs, reduceCtorEq] at h
  | refused r => simp only [hs, reduceCtorEq] at h

end Run

/-- Settles O56: by induction on the number of steps. -/
theorem writeOnlyRegistersAreNeverObserved : Obligations.WriteOnlyRegistersAreNeverObserved := fun n => by
  induction n with
  | zero =>
    intro s s' t hs ht
    exact ⟨s', rfl, Host.Outcome.next.inj ht ▸ hs⟩
  | succ n ih =>
    intro s s' t hs ht
    obtain ⟨u, hu, hrun⟩ := exists_step_of_run ht
    obtain ⟨u', hu', hhide⟩ := step_of_hideWriteOnly_eq hu hs
    obtain ⟨t', hrun', hhide'⟩ := ih u u' t hhide hrun
    exact ⟨t', (run_succ_of_step hu').trans hrun', hhide'⟩

end Sys2Proof.Machine
end
